-- ==== Sys2Proof/Word.lean ====
section
/-! DEFINITION. The words of BFVC: a storage or port byte, the 80-bit command word (R39), the 76-bit response
word (R41), the 32-bit position register (R6 `POS_W`) and the 64-bit data field (R6 `DATA_W`). -/

namespace Sys2Proof

/-- A storage byte or a byte on a port (R24, R29, R30); also the `op` and `n` fields of a command (R39). -/
abbrev Byte := BitVec 8

/-- A command word `CW` (R39). -/
abbrev CmdWord := BitVec 80

/-- A response word `RW` (R41). -/
abbrev RespWord := BitVec 76

/-- A bit-position register (R6 `POS_W` = 32). -/
abbrev Pos := BitVec 32

/-- The `data` field of a command and the `result` field of a response (R6 `DATA_W` = 64). -/
abbrev Data := BitVec 64

end Sys2Proof
end

