-- ==== Sys2Proof/Syntax.lean ====
section
/-! DEFINITION. The 22 commands of BFVC (R42), one constructor per row of spec/opcode_table.json, each with the
operands its command uses (R40, R45). A field a command does not use is ignored (R44), so it is no operand. -/

namespace Sys2Proof

/-- A decoded command (R42). Operands are the fields of the command word as bits (R40): a value operand of a
command of type width 32 is `data[31:0]`. -/
inductive Instr where
  /-- BWNEW cap_bytes (R59). -/
  | bwnew (capBytes : Data)
  /-- BWFIN, also spelt BWBYTES (R62). -/
  | bwfin
  /-- WRBITS32 n, value (R60). -/
  | wrbits32 (n : Byte) (value : BitVec 32)
  /-- WRBITS64 n, value (R61). -/
  | wrbits64 (n : Byte) (value : BitVec 64)
  /-- BWRDB addr (R63). -/
  | bwrdb (addr : Data)
  /-- BRNEW length_bits (R66). -/
  | brnew (lengthBits : Data)
  /-- BRSEEK pos; BRREWIND is BRSEEK 0 (R70). -/
  | brseek (pos : Data)
  /-- RDBITS32 n (R68). -/
  | rdbits32 (n : Byte)
  /-- RDBITS64 n (R69). -/
  | rdbits64 (n : Byte)
  /-- BRLDB addr, byte (R67): the byte travels in the field `n`, the address in `data`. -/
  | brldb (addr : Data) (byte : Byte)
  /-- ZZENC32 value (R73). -/
  | zzenc32 (value : BitVec 32)
  /-- ZZENC64 value (R74). -/
  | zzenc64 (value : BitVec 64)
  /-- ZZDEC32 value (R75). -/
  | zzdec32 (value : BitVec 32)
  /-- ZZDEC64 value (R76). -/
  | zzdec64 (value : BitVec 64)
  /-- WRUV32 value (R83). -/
  | wruv32 (value : BitVec 32)
  /-- WRUV64 value (R84). -/
  | wruv64 (value : BitVec 64)
  /-- WRSV32 value (R85). -/
  | wrsv32 (value : BitVec 32)
  /-- WRSV64 value (R86). -/
  | wrsv64 (value : BitVec 64)
  /-- RDUV32 (R89). -/
  | rduv32
  /-- RDUV64 (R90). -/
  | rduv64
  /-- RDSV32 (R91). -/
  | rdsv32
  /-- RDSV64 (R92). -/
  | rdsv64
  deriving DecidableEq, Repr

end Sys2Proof
end

