-- ==== Sys2Proof/WellFormed.lean ====
section
/-! DEFINITION. Well-formedness. A term of `Instr` holds only the fields its command uses, each as a bit vector of
exactly the field's width, so every term of `Instr` is well formed. What can be ill formed is a COMMAND WORD: this
file says, from the "uses n" and "uses data" columns of R42, which words the spec's assembler writes
(R45: "Unused fields are assembled as 0"). A word that fails a check still executes (R43, R44). -/

namespace Sys2Proof

/-- One row of the opcode map (R42): the opcode, whether the command uses `n`, and how many low bits of `data`
it uses. -/
structure FieldUse where
  op : Nat
  usesN : Bool
  dataBits : Nat
  deriving DecidableEq, Repr

/-- The rows of the units BW and BR (R42). -/
def fieldUsesBits : List FieldUse :=
  [⟨0x00, false, 64⟩, ⟨0x01, false, 0⟩, ⟨0x02, true, 32⟩, ⟨0x03, true, 64⟩, ⟨0x04, false, 64⟩,
   ⟨0x10, false, 64⟩, ⟨0x11, false, 64⟩, ⟨0x12, true, 0⟩, ⟨0x13, true, 0⟩, ⟨0x14, true, 64⟩]

/-- The rows of the units ZZ, VE and VD (R42). -/
def fieldUsesVarint : List FieldUse :=
  [⟨0x20, false, 32⟩, ⟨0x21, false, 64⟩, ⟨0x22, false, 32⟩, ⟨0x23, false, 64⟩,
   ⟨0x30, false, 32⟩, ⟨0x31, false, 64⟩, ⟨0x32, false, 32⟩, ⟨0x33, false, 64⟩,
   ⟨0x40, false, 0⟩, ⟨0x41, false, 0⟩, ⟨0x42, false, 0⟩, ⟨0x43, false, 0⟩]

/-- The opcode map (R42), 22 rows. -/
def fieldUses : List FieldUse := fieldUsesBits ++ fieldUsesVarint

/-- The row of an opcode, if the opcode is one of the 22 (R42, R43). -/
def fieldUse (op : Byte) : Option FieldUse := fieldUses.find? fun r => r.op == op.toNat

/-- The word's opcode is one of the 22 (R43). -/
def opIsLegal (w : CmdWord) : Bool := (fieldUse (w.extractLsb' 72 8)).isSome

/-- The field `n` is 0 where the command does not use it (R45). -/
def unusedNIsZero (w : CmdWord) : Bool :=
  match fieldUse (w.extractLsb' 72 8) with
  | some r => r.usesN || w.extractLsb' 64 8 == 0
  | none => true

/-- The bits of `data` the command does not use are 0 (R45). -/
def unusedDataIsZero (w : CmdWord) : Bool :=
  match fieldUse (w.extractLsb' 72 8) with
  | some r => (w.extractLsb' 0 64).toNat < 2 ^ r.dataBits
  | none => true

/-- A command word as the spec's assembler writes it (R42, R45). -/
def wellFormedWord (w : CmdWord) : Bool := opIsLegal w && unusedNIsZero w && unusedDataIsZero w

end Sys2Proof
end

