-- ==== Sys2Proof/Decode.lean ====
section
/-! DEFINITION. The command decoder, total on every 80-bit word (R43), and after it the encoder, both from the
tables of 30_encoding.md R39, R42, R44, R45. -/

namespace Sys2Proof

/-- The field `op` = `CW[79:72]` (R39). -/
def opField (w : CmdWord) : Byte := w.extractLsb' 72 8

/-- The field `n` = `CW[71:64]` (R39). -/
def nField (w : CmdWord) : Byte := w.extractLsb' 64 8

/-- The field `data` = `CW[63:0]` (R39). -/
def dataField (w : CmdWord) : Data := w.extractLsb' 0 64

/-- `data[31:0]`, the value operand of a command of type width 32 (R40). -/
def data32Field (w : CmdWord) : BitVec 32 := w.extractLsb' 0 32

/-- What a command word selects: a command, or no command because its opcode is illegal (R43). -/
inductive Decoded where
  | instr (i : Instr)
  | illegal (op : Byte)
  deriving DecidableEq, Repr

/-- The decoder (R42): it matches the whole `op` byte against the 22 values and "treats every other value as
illegal" (R43); the fields a command does not use are not looked at (R44). -/
def decode (w : CmdWord) : Decoded :=
  match (opField w).toNat with
  | 0x00 => .instr (.bwnew (dataField w))
  | 0x01 => .instr .bwfin
  | 0x02 => .instr (.wrbits32 (nField w) (data32Field w))
  | 0x03 => .instr (.wrbits64 (nField w) (dataField w))
  | 0x04 => .instr (.bwrdb (dataField w))
  | 0x10 => .instr (.brnew (dataField w))
  | 0x11 => .instr (.brseek (dataField w))
  | 0x12 => .instr (.rdbits32 (nField w))
  | 0x13 => .instr (.rdbits64 (nField w))
  | 0x14 => .instr (.brldb (dataField w) (nField w))
  | 0x20 => .instr (.zzenc32 (data32Field w))
  | 0x21 => .instr (.zzenc64 (dataField w))
  | 0x22 => .instr (.zzdec32 (data32Field w))
  | 0x23 => .instr (.zzdec64 (dataField w))
  | 0x30 => .instr (.wruv32 (data32Field w))
  | 0x31 => .instr (.wruv64 (dataField w))
  | 0x32 => .instr (.wrsv32 (data32Field w))
  | 0x33 => .instr (.wrsv64 (dataField w))
  | 0x40 => .instr .rduv32
  | 0x41 => .instr .rduv64
  | 0x42 => .instr .rdsv32
  | 0x43 => .instr .rdsv64
  | _ => .illegal (opField w)

/-- A command word put together from its three fields (R39). -/
def cmdWord (op n : Byte) (data : Data) : CmdWord := op ++ n ++ data

/-- The encoder: the word the spec's assembler writes for a command, unused fields 0 (R42, R45). -/
def encode : Instr → CmdWord
  | .bwnew cap => cmdWord 0x00 0 cap
  | .bwfin => cmdWord 0x01 0 0
  | .wrbits32 n v => cmdWord 0x02 n (v.zeroExtend 64)
  | .wrbits64 n v => cmdWord 0x03 n v
  | .bwrdb addr => cmdWord 0x04 0 addr
  | .brnew len => cmdWord 0x10 0 len
  | .brseek pos => cmdWord 0x11 0 pos
  | .rdbits32 n => cmdWord 0x12 n 0
  | .rdbits64 n => cmdWord 0x13 n 0
  | .brldb addr byte => cmdWord 0x14 byte addr
  | .zzenc32 v => cmdWord 0x20 0 (v.zeroExtend 64)
  | .zzenc64 v => cmdWord 0x21 0 v
  | .zzdec32 v => cmdWord 0x22 0 (v.zeroExtend 64)
  | .zzdec64 v => cmdWord 0x23 0 v
  | .wruv32 v => cmdWord 0x30 0 (v.zeroExtend 64)
  | .wruv64 v => cmdWord 0x31 0 v
  | .wrsv32 v => cmdWord 0x32 0 (v.zeroExtend 64)
  | .wrsv64 v => cmdWord 0x33 0 v
  | .rduv32 => cmdWord 0x40 0 0
  | .rduv64 => cmdWord 0x41 0 0
  | .rdsv32 => cmdWord 0x42 0 0
  | .rdsv64 => cmdWord 0x43 0 0

/-- The pseudo-instruction BWBYTES, "another spelling of `BWFIN` (same word)" (R46). -/
def bwbytes : Instr := .bwfin

/-- The pseudo-instruction BRREWIND, which "assembles to `BRSEEK 0`" (R46). -/
def brrewind : Instr := .brseek 0

/-- The host's question of the decoder: the command it reads from the word whose bits are `w`, of which the table
gives the low `nbits`. A command is one 80-bit word with bit 0 its least significant bit (R39). -/
def decodeTableWord (nbits w : Nat) : Option Instr :=
  match decode (BitVec.ofNat 80 (w % 2 ^ nbits)) with
  | .instr i => some i
  | .illegal _ => none

end Sys2Proof
end

