-- ==== Sys2Proof/Config.lean ====
section
/-! DEFINITION. What an implementation fixes (the bounds of `STORAGE_BYTES`, R6) and the one free value of the
model: the bytes the spec leaves unspecified (93_implementation_defined.md U1, U2, U3). -/

namespace Sys2Proof.Config

/-- The upper bound of the parameter `STORAGE_BYTES` (R6: `1 <= STORAGE_BYTES <= 2^28`). -/
def maxStorageBytes : Nat := 2 ^ 28

/-- The size the spec's test vectors use (R6). DESIGN CHOICE (log 1): `State.reset` takes it, so that
the state after reset is one concrete state; unsafe for a claim about `State.reset` alone. -/
def referenceStorageBytes : Nat := 16

/-- The unspecified byte that draw number `draw` gives at byte address `addr` of a storage: a free value
(U1, U2, U3; log 2), with no body, so that no proof can know it. -/
opaque freeByte (draw addr : Nat) : Byte

end Sys2Proof.Config
end

