-- ==== Sys2Proof/Machine/State.lean ====
section
/-! DEFINITION. The state of BFVC as plain data: the seven state elements of R7, and beside them what R8 makes a
parameter or the environment of the model (the storage size, the two byte ports, the host's actions and the
responses it was given), so that a claim over every state is a claim over every size and every environment. -/

namespace Sys2Proof.Machine

/-- The kinds of the one error type (R96, R97). -/
inductive ErrorKind where
  | io
  | eof
  | unexpectedEof
  | overflow
  | malformedVarint
  | illegal
  deriving DecidableEq, Repr

/-- The `status` of a response (R97). -/
inductive Status where
  | ok
  | error (e : ErrorKind)
  deriving DecidableEq, Repr

/-- A response (R41), by its three fields. -/
structure Response where
  status : Status
  count : BitVec 8
  result : Data
  deriving DecidableEq, Repr

/-- The three answers of the byte-source port to `SrcGet()` (R29). -/
inductive SrcAnswer where
  | byte (b : Byte)
  | endOfStream
  | fail
  deriving DecidableEq, Repr

/-- The two answers of the byte-sink port to `SinkPut(b)` (R30). -/
inductive SinkAnswer where
  | ok
  | fail
  deriving DecidableEq, Repr

/-- The byte source behind `SrcGet` (R29): the answers the host will give to the next calls, in order; what it
answers to every call after those (`none`: it never answers, U6); and the number of bytes taken so far (R122), which are
the bytes answered `Byte`. DESIGN CHOICE (log 16): a call answered `Fail` takes none; R93 leaves that to the stream. -/
structure SrcPort where
  answers : List SrcAnswer
  after : Option SrcAnswer
  taken : Nat
  deriving DecidableEq, Repr

/-- The byte sink behind `SinkPut` (R30): the answers to the next calls, what it answers after those (`none`: it
never answers, U6), and the bytes it has accepted, in order (R122), which are those answered `Ok`. DESIGN CHOICE (log 16):
a call answered `Fail` leaves no byte; U4 makes that a parameter. -/
structure SinkPort where
  answers : List SinkAnswer
  after : Option SinkAnswer
  accepted : List Byte
  deriving DecidableEq, Repr

/-- What the host does to the block (R121), one action a step. -/
inductive HostEvent where
  /-- Present one command word, legal or not. -/
  | command (w : CmdWord)
  /-- Apply reset between commands (R112). -/
  | reset
  /-- Attach another byte source: from here on these are its answers. -/
  | attachSource (answers : List SrcAnswer) (after : Option SrcAnswer)
  /-- Attach another byte sink. -/
  | attachSink (answers : List SinkAnswer) (after : Option SinkAnswer)
  /-- Apply reset while the command is in progress: outside the rules (R113, U5). -/
  | resetDuringCommand (w : CmdWord)
  /-- Present two commands at once: outside the rules (R116, U9). -/
  | twoCommands (w w' : CmdWord)
  deriving DecidableEq, Repr

/-- A storage: the bytes that hold a specified value, as (address, byte) pairs in rising order of address. An
address that is not listed holds no specified byte (R16, R19): reading it gives a free byte (log 2, 3). -/
abbrev Memory := List Host.Cell

/-- The machine. -/
structure State where
  /-- `STORAGE_BYTES` (R6, R8): no step changes it. -/
  storageBytes : Nat
  /-- `BW.capacity_bits` (R12). -/
  bwCapacityBits : Pos
  /-- `BW.cursor_bits` (R13). -/
  bwCursorBits : Pos
  /-- `BW.high_water_bits` (R14). -/
  bwHighWaterBits : Pos
  /-- `BWMem` (R16). -/
  bwMem : Memory
  /-- `BR.length_bits` (R17). -/
  brLengthBits : Pos
  /-- `BR.cursor_bits` (R18). -/
  brCursorBits : Pos
  /-- `BRMem` (R19): the bytes BRLDB has loaded since reset. -/
  brMem : Memory
  /-- The number of the draw that gives the bytes of `BRMem` not loaded since reset (U2). The model's own. -/
  brImage : Nat
  /-- The number of the next draw of free bytes (U1, U2). The model's own. -/
  draws : Nat
  /-- The byte source (R29). The environment's. -/
  source : SrcPort
  /-- The byte sink (R30). The environment's. -/
  sink : SinkPort
  /-- What the host will do next, in order (R36). The environment's. -/
  pending : List HostEvent
  /-- The responses given so far, oldest first (R41, R122). -/
  responses : List Response
  deriving DecidableEq, Repr

/-- Why the machine stops. -/
inductive Fault where
  /-- A `SrcGet` that the host never answers: the command never completes (R119, U6: "stuck"). Raised by RDUV32,
  RDUV64, RDSV32, RDSV64. Safe: the block really hangs there, and the model does not step past it. -/
  | sourceNeverAnswers
  /-- A `SinkPut` that the host never answers (R119, U6: "stuck"). Raised by WRUV32, WRUV64, WRSV32, WRSV64. Safe. -/
  | sinkNeverAnswers
  /-- An access to a byte address of `STORAGE_BYTES` or more, which does not exist (R24). Raised by WRBITS32,
  WRBITS64, BWRDB, RDBITS32, RDBITS64 only in a state that breaks R15 or R18, so by no run from reset (log 10). Safe. -/
  | outsideStorage
  deriving DecidableEq, Repr

/-- Why the model gives no meaning. -/
inductive Refusal where
  /-- An instruction whose arm of `exec` has no meaning yet. Safe. -/
  | notModelled (mnemonic : String)
  /-- Reset while a command is in progress: "A model refuses such a run rather than give it a meaning" (R113, U5).
  Raised by `step` on the event `resetDuringCommand`. Safe. -/
  | resetDuringCommand
  /-- Two commands presented at once: "assumed never" (R121), to be refused (U9). Raised by `step` on the event
  `twoCommands`. Safe. -/
  | concurrentCommands
  deriving DecidableEq, Repr

/-- The block after reset (R23), of a given storage size and with a given source and sink, which reset does not touch (R112): every position
register 0, no byte of either storage specified, no command in progress, no response given. -/
def State.afterReset (storageBytes : Nat) (source : SrcPort) (sink : SinkPort) : State where
  storageBytes := storageBytes
  bwCapacityBits := 0
  bwCursorBits := 0
  bwHighWaterBits := 0
  bwMem := []
  brLengthBits := 0
  brCursorBits := 0
  brMem := []
  brImage := 0
  draws := 1
  source := source
  sink := sink
  pending := []
  responses := []

/-- The reference byte source (R29) with no bytes: it answers `End` at every call. -/
def SrcPort.empty : SrcPort := ⟨[], some .endOfStream, 0⟩

/-- The reference byte sink (R30), which "always answers `Ok`", with nothing accepted yet. -/
def SinkPort.empty : SinkPort := ⟨[], some .ok, []⟩

/-- The machine right after reset (R23, R112). DESIGN CHOICE (log 1, 5): of the parameters it takes the storage size of
the spec's vectors and the reference environment with empty streams; `State.afterReset` has them all. -/
def State.reset : State := State.afterReset Config.referenceStorageBytes .empty .empty

end Sys2Proof.Machine
end

