-- ==== Sys2Proof/Machine/Ops.lean ====
section
/-! DEFINITION. The named operations over memory and registers: storage bytes and bits (40_bit_tables.md), the two
byte ports (R29, R30), giving a response (00_scope.md section 5 `respond`), and failing a command (`raise`), which
is this hardware's whole "taking an exception" (R98, R107); there is nothing to return from (R108). -/

namespace Sys2Proof.Machine

/-- The outcome of a meaning or a step. -/
abbrev Out := Host.Outcome State Fault Refusal

/-! ## Storage bytes -/

/-- The specified byte at an address, if it is listed. -/
def Memory.read : Memory → Nat → Option Byte
  | [], _ => none
  | (k, v) :: m, a => if k = a then some v else Memory.read m a

/-- Store a byte at an address, keeping the list in rising order (00_scope.md section 5 `MemWrite`). -/
def Memory.write : Memory → Nat → Byte → Memory
  | [], a, b => [(a, b)]
  | (k, v) :: m, a, b =>
    if a < k then (a, b) :: (k, v) :: m
    else if a = k then (a, b) :: m
    else (k, v) :: Memory.write m a b

/-- The canonical form: addresses strictly rising. An unlisted address holds no specified byte, so no entry is
ever equal to what an unlisted address reads as. -/
abbrev Memory.wf (m : Memory) : Prop := m.Pairwise fun x y => x.1 < y.1

/-- The storage as a byte array in which draw number `draw` gives the unspecified bytes: THE ONE definition of what an
unlisted address reads as (R16, R19, U1, U2; log 2, 3). -/
def Memory.byteAt (m : Memory) (draw a : Nat) : Byte := (m.read a).getD (Config.freeByte draw a)

/-! ## Bits (40_bit_tables.md) -/

/-- `BitLoc(p)` (R50): byte index and mask. -/
def bitLoc (p : Nat) : Nat × Byte := (p >>> 3, (1 : Byte) <<< (p &&& 7))

/-- `BitRead(S, p)` (R52). -/
def bitRead (byteAt : Nat → Byte) (p : Nat) : Bool := byteAt (bitLoc p).1 &&& (bitLoc p).2 != 0

/-- `BitWrite(S, p, b)` (R52). In a byte that is not listed, so that none of its bits is specified, the seven bits
beside the written one become 0; they stand for unspecified bits, and no command returns them (log 4). -/
def bitWrite (m : Memory) (p : Nat) (b : Bool) : Memory :=
  let old := (m.read (bitLoc p).1).getD 0
  m.write (bitLoc p).1 ((old &&& ~~~(bitLoc p).2) ||| (if b then (bitLoc p).2 else 0))

/-- `FieldExtract(S, c, n)` (R53): the sum of `BitRead(S, c + i) * 2^i` over `i` in `0 .. n-1`. -/
def fieldExtract (byteAt : Nat → Byte) (c : Nat) : Nat → Nat
  | 0 => 0
  | n + 1 => fieldExtract byteAt c n + (bitRead byteAt (c + n)).toNat * 2 ^ n

/-- `FieldInsert(S, c, n, v)` (R54): `BitWrite(S, c + i, v[i])` for `i` in `0 .. n-1`. -/
def fieldInsert {w : Nat} (m : Memory) (c : Nat) (v : BitVec w) : Nat → Memory
  | 0 => m
  | n + 1 => bitWrite (fieldInsert m c v n) (c + n) (v.getLsbD n)

/-- The number of bytes an `n`-bit field at bit position `c` touches: `k = ceil((o + n) / 8)`, 0 when `n = 0`
(R31, R55). -/
def bytesTouched (c n : Nat) : Nat := if n = 0 then 0 else ((c &&& 7) + n + 7) / 8

/-- `sum over j in 0 .. k-1 of MemRead(S, a0 + j, 1) * 2^(8j)`, the `T` of R55. -/
def assembleBytes (byteAt : Nat → Byte) (a0 : Nat) : Nat → Nat
  | 0 => 0
  | k + 1 => assembleBytes byteAt a0 k + (byteAt (a0 + k)).toNat * 2 ^ (8 * k)

/-- The byte-wise form of `FieldExtract` (R55): `(T >>l o) AND (2^n - 1)`. -/
def fieldExtractBytewise (byteAt : Nat → Byte) (c n : Nat) : Nat :=
  (assembleBytes byteAt (c >>> 3) (bytesTouched c n) >>> (c &&& 7)) &&& (2 ^ n - 1)

/-- Byte `j` of the bytes an insertion touches (R55): bits `lo_j .. hi_j` from the value, the others kept. -/
def insertedByte {w : Nat} (c n : Nat) (v : BitVec w) (j : Nat) (old : Byte) : Byte :=
  let o := c &&& 7
  let field : Byte := BitVec.ofNat 8 ((2 ^ n - 1) <<< o >>> (8 * j))
  let bits : Byte := BitVec.ofNat 8 ((v.toNat % 2 ^ n) <<< o >>> (8 * j))
  (old &&& ~~~field) ||| (bits &&& field)

/-- The byte-wise form of `FieldInsert` (R55), over the first `k` of the touched bytes. -/
def fieldInsertBytewise {w : Nat} (m : Memory) (c n : Nat) (v : BitVec w) : Nat → Memory
  | 0 => m
  | k + 1 =>
    let m' := fieldInsertBytewise m c n v k
    let a := (c >>> 3) + k
    m'.write a (insertedByte c n v k ((m'.read a).getD 0))

/-! ## Registers -/

/-- The number of bits of each storage, `8 * STORAGE_BYTES`. -/
abbrev State.storageBits (s : State) : Nat := 8 * s.storageBytes

/-- The bytes of `BRMem`: the loaded ones, and for the others the draw made at reset (R19, U2). -/
def State.brByte (s : State) (a : Nat) : Byte := s.brMem.byteAt s.brImage a

/-- The length in bytes of the written prefix, `ceil(BW.high_water_bits / 8)` (R62). -/
abbrev State.bwPrefixBytes (s : State) : Nat := (s.bwHighWaterBits.toNat + 7) >>> 3

/-- A BW session of the given capacity with nothing written: every bit of `BWMem` unspecified (R59). -/
def State.bwSession (s : State) (capacityBits : Pos) : State :=
  { s with bwCapacityBits := capacityBits, bwCursorBits := 0, bwHighWaterBits := 0, bwMem := [] }

/-- `BWMem`, cursor and high-water mark after a write of `n` bits of `v` at the cursor (R58 steps 3 to 5); the sum
is exact (R56). -/
def State.bwAdvance {w : Nat} (s : State) (n : Nat) (v : BitVec w) : State :=
  let cursor := s.bwCursorBits.toNat + n
  { s with
    bwMem := fieldInsert s.bwMem s.bwCursorBits.toNat v n
    bwCursorBits := BitVec.ofNat 32 cursor
    bwHighWaterBits := BitVec.ofNat 32 (max s.bwHighWaterBits.toNat cursor) }

/-- A BR session of the given length with its cursor at 0; `BRMem` is kept (R66). -/
def State.brSession (s : State) (lengthBits : Pos) : State :=
  { s with brLengthBits := lengthBits, brCursorBits := 0 }

/-- The reader's cursor moved (R65, R70). -/
def State.brMoveTo (s : State) (pos : Nat) : State := { s with brCursorBits := BitVec.ofNat 32 pos }

/-- One byte of `BRMem` loaded (R67). -/
def State.brLoad (s : State) (a : Nat) (b : Byte) : State := { s with brMem := s.brMem.write a b }

/-- The draw counter advanced: the next free byte is another (U1: "draws them anew"). -/
def State.drawn (s : State) : State := { s with draws := s.draws + 1 }

/-- The byte source replaced by what it is after some calls. -/
def State.withSource (s : State) (p : SrcPort) : State := { s with source := p }

/-- The byte sink replaced by what it is after some calls. -/
def State.withSink (s : State) (p : SinkPort) : State := { s with sink := p }

/-- The host's actions still to come. -/
def State.withPending (s : State) (es : List HostEvent) : State := { s with pending := es }

/-- One more response given. -/
def State.gave (s : State) (r : Response) : State := { s with responses := s.responses ++ [r] }

/-! ## Completing a command -/

/-- `respond(result, count)` (00_scope.md section 5): complete with status Ok. -/
def respond (result : Data) (count : BitVec 8) (s : State) : Out := .next (s.gave ⟨.ok, count, result⟩)

/-- `raise <Error>` (R98): the command completes at once with the error's status, `count = 0` and `result = 0`, and
no register and no storage byte changes. Nothing is saved, no mode changes and control goes nowhere (R107). -/
def raise (e : ErrorKind) (s : State) : Out := .next (s.gave ⟨.error e, 0, 0⟩)

/-- A command word whose opcode selects no command (R43, R104). -/
def raiseIllegal (s : State) : Out := raise .illegal s

/-! ## The byte ports -/

/-- How many bytes an answer of the source counts as consumed: `Byte` one and `End`, "no further byte", none (R29).
DESIGN CHOICE (log 16): a call answered `Fail` counts as none, which R93 leaves to the source stream. -/
def SrcAnswer.consumed : SrcAnswer → Nat
  | .byte _ => 1
  | .endOfStream => 0
  | .fail => 0

/-- `SrcGet()` (R29): the answer and the port after the call; `none` where the host never answers (U6). -/
def srcGet (p : SrcPort) : Option (SrcAnswer × SrcPort) :=
  match p.answers with
  | a :: rest => some (a, ⟨rest, p.after, p.taken + a.consumed⟩)
  | [] => p.after.map fun a => (a, ⟨[], p.after, p.taken + a.consumed⟩)

/-- What a sink is recorded as having accepted after answering `a` to the byte `b`: `Ok`, "the sink has taken the byte"
(R30). DESIGN CHOICE (log 16): a call answered `Fail` leaves nothing in the sink, which U4 calls a parameter. -/
def SinkAnswer.accepts (b : Byte) : SinkAnswer → List Byte
  | .ok => [b]
  | .fail => []

/-- `SinkPut(b)` (R30): the answer and the port after the call; `none` where the host never answers (U6). -/
def sinkPut (p : SinkPort) (b : Byte) : Option (SinkAnswer × SinkPort) :=
  match p.answers with
  | a :: rest => some (a, ⟨rest, p.after, p.accepted ++ a.accepts b⟩)
  | [] => p.after.map fun a => (a, ⟨[], p.after, p.accepted ++ a.accepts b⟩)

/-! ## What the host does besides commands -/

/-- The reset event (R112): every position register 0, both storages unspecified (a new draw for `BRMem`, U2);
the byte source, the byte sink, and what the host has seen are not touched. -/
def applyReset (s : State) : Out :=
  .next { s with
    bwCapacityBits := 0, bwCursorBits := 0, bwHighWaterBits := 0, bwMem := []
    brLengthBits := 0, brCursorBits := 0, brMem := [], brImage := s.draws, draws := s.draws + 1 }

/-- Another byte source attached (R121); the count of bytes taken goes on (R122). -/
def attachSource (answers : List SrcAnswer) (after : Option SrcAnswer) (s : State) : Out :=
  .next (s.withSource ⟨answers, after, s.source.taken⟩)

/-- Another byte sink attached (R121); the record of accepted bytes goes on (R122). -/
def attachSink (answers : List SinkAnswer) (after : Option SinkAnswer) (s : State) : Out :=
  .next (s.withSink ⟨answers, after, s.sink.accepted⟩)

/-- The block waiting for the next command (R112; log 7). -/
def idle (s : State) : Out := .next s

end Sys2Proof.Machine
end

