-- ==== Sys2Proof/Machine/Operands.lean ====
section
/-! DEFINITION. Operand forms and the arithmetic the units share: the width of a result (R41), narrowing a checked
operand to a position register (R40), the longest varint (R5), and the zigzag mapping (R72). -/

namespace Sys2Proof.Machine

/-- `MAXB(W) = ceil(W / 7)`, the longest varint of a width (R5): 5 for 32, 10 for 64. -/
def maxB (w : Nat) : Nat := (w + 6) / 7

/-- `zext_64(v)`: a result of type width `W` in the `result` field (R41). -/
def zext64 {w : Nat} (v : BitVec w) : Data := v.zeroExtend 64

/-- A checked position or length in a position register (R40: compared at 64 bits before it is narrowed). -/
def toPos (v : Nat) : Pos := BitVec.ofNat 32 v

/-- A byte count in the `count` field (R41). -/
def toCount (k : Nat) : BitVec 8 := BitVec.ofNat 8 k

/-- `ZigZagEnc_W(n) = (n << 1) XOR (n >>a (W-1))` (R72). -/
def zigzagEnc {w : Nat} (n : BitVec w) : BitVec w := (n <<< 1) ^^^ n.sshiftRight (w - 1)

/-- `ZigZagDec_W(u) = (u >>l 1) XOR NEG_W(u AND 1)` (R72). -/
def zigzagDec {w : Nat} (u : BitVec w) : BitVec w := (u >>> 1) ^^^ -(u &&& 1)

end Sys2Proof.Machine
end

