-- ==== Sys2Proof/Machine/BitReader.lean ====
section
/-! DEFINITION. The BitReader commands BRNEW, BRSEEK, RDBITS32, RDBITS64, BRLDB (42_bitreader.md). -/

namespace Sys2Proof.Machine

/-- `BRRead(W, n)` (R65): width check, length check, extraction, cursor. The fault after the two checks cannot be
reached where R17 and R18 hold (log 10). -/
def brRead (w : Nat) (n : Byte) (s : State) : Out :=
  if w < n.toNat then raise .overflow s
  else if s.brLengthBits.toNat < s.brCursorBits.toNat + n.toNat then raise .eof s
  else if s.storageBits < s.brCursorBits.toNat + n.toNat then .fault .outsideStorage
  else
    respond (BitVec.ofNat 64 (fieldExtract s.brByte s.brCursorBits.toNat n.toNat)) 0
      (s.brMoveTo (s.brCursorBits.toNat + n.toNat))

/-- BRNEW (R66). -/
def execBrnew (lengthBits : Data) (s : State) : Out :=
  if s.storageBits < lengthBits.toNat then raise .overflow s
  else respond 0 0 (s.brSession (toPos lengthBits.toNat))

/-- BRSEEK (R70). -/
def execBrseek (pos : Data) (s : State) : Out :=
  if s.brLengthBits.toNat < pos.toNat then raise .overflow s
  else respond 0 0 (s.brMoveTo pos.toNat)

/-- RDBITS32 (R68). -/
def execRdbits32 (n : Byte) (s : State) : Out := brRead 32 n s

/-- RDBITS64 (R69). -/
def execRdbits64 (n : Byte) (s : State) : Out := brRead 64 n s

/-- BRLDB (R67). -/
def execBrldb (addr : Data) (byte : Byte) (s : State) : Out :=
  if s.storageBytes ≤ addr.toNat then raise .overflow s
  else respond 0 0 (s.brLoad addr.toNat byte)

end Sys2Proof.Machine
end

