-- ==== Sys2Proof/Machine/BitWriter.lean ====
section
/-! DEFINITION. The BitWriter commands BWNEW, BWFIN, WRBITS32, WRBITS64, BWRDB (41_bitwriter.md). -/

namespace Sys2Proof.Machine

/-- `BWWrite(W, n, v)` (R58): width check, capacity check, insertion, cursor, high-water mark. The fault after the
two checks cannot be reached where R15 (a) holds (log 10). -/
def bwWrite {w : Nat} (n : Byte) (v : BitVec w) (s : State) : Out :=
  if w < n.toNat then raise .overflow s
  else if s.bwCapacityBits.toNat < s.bwCursorBits.toNat + n.toNat then raise .overflow s
  else if s.storageBits < s.bwCursorBits.toNat + n.toNat then .fault .outsideStorage
  else respond 0 0 (s.bwAdvance n.toNat v)

/-- The bits of byte `addr` that lie below `BW.high_water_bits`, as a mask; meant for a byte that the high-water
mark cuts (R63). -/
def specifiedMask (highWater addr : Nat) : Byte := BitVec.ofNat 8 (2 ^ (highWater - 8 * addr) - 1)

/-- One byte of the written prefix as BWRDB returns it (R63), and whether it has pad bits: a byte wholly below the
high-water mark is the stored one; in the byte the mark cuts, the pad bits are drawn anew (U1). A byte that is not
listed, which the written prefix never has (log 3), reads as a free one. -/
def bwReadByte (s : State) (addr : Nat) : Byte × Bool :=
  let stored := s.bwMem.byteAt s.draws addr
  if 8 * addr + 8 ≤ s.bwHighWaterBits.toNat then (stored, false)
  else
    let m := specifiedMask s.bwHighWaterBits.toNat addr
    ((stored &&& m) ||| (Config.freeByte s.draws addr &&& ~~~m), true)

/-- BWNEW (R59). -/
def execBwnew (capBytes : Data) (s : State) : Out :=
  if s.storageBytes < capBytes.toNat then raise .overflow s
  else respond 0 0 (s.bwSession (toPos (8 * capBytes.toNat)))

/-- BWFIN, also spelt BWBYTES (R62). -/
def execBwfin (s : State) : Out := respond (BitVec.ofNat 64 s.bwPrefixBytes) 0 s

/-- WRBITS32 (R60). -/
def execWrbits32 (n : Byte) (value : BitVec 32) (s : State) : Out := bwWrite n value s

/-- WRBITS64 (R61). -/
def execWrbits64 (n : Byte) (value : BitVec 64) (s : State) : Out := bwWrite n value s

/-- BWRDB (R63). -/
def execBwrdb (addr : Data) (s : State) : Out :=
  if s.bwPrefixBytes ≤ addr.toNat then raise .overflow s
  else if s.storageBytes ≤ addr.toNat then .fault .outsideStorage
  else
    let r := bwReadByte s addr.toNat
    respond (zext64 r.1) 0 (if r.2 then s.drawn else s)

end Sys2Proof.Machine
end

