-- ==== Sys2Proof/Machine/VarintDecode.lean ====
section
/-! DEFINITION. The varint decode commands RDUV32, RDUV64, RDSV32, RDSV64 (45_varint_decode.md). -/

namespace Sys2Proof.Machine

/-- How the loop of R88 ended: with a value and the number of bytes consumed, with an error, or stuck on a call that
is never answered (U6). -/
inductive VarintRun (w : Nat) where
  | value (v : BitVec w) (count : Nat) (p : SrcPort)
  | failed (e : ErrorKind) (p : SrcPort)
  | neverAnswered
  deriving DecidableEq, Repr

/-- `acc OR ((b AND 0x7F) << (7*i))` in `W` bits (R88): bits pushed past bit `W-1` are lost. -/
def accumulate {w : Nat} (acc : BitVec w) (i : Nat) (b : Byte) : BitVec w :=
  acc ||| ((b &&& 0x7F).setWidth w <<< (7 * i))

/-- The loop of R88 with `left` turns left, at byte index `i`; when none is left, one more byte is asked for and the
varint is malformed whatever that byte holds. -/
def uvarintDecodeFrom {w : Nat} : Nat → Nat → BitVec w → SrcPort → VarintRun w
  | 0, _, _, p =>
    match srcGet p with
    | none => .neverAnswered
    | some (.endOfStream, p') => .failed .unexpectedEof p'
    | some (.fail, p') => .failed .io p'
    | some (.byte _, p') => .failed .malformedVarint p'
  | left + 1, i, acc, p =>
    match srcGet p with
    | none => .neverAnswered
    | some (.endOfStream, p') => .failed .unexpectedEof p'
    | some (.fail, p') => .failed .io p'
    | some (.byte b, p') =>
      if b.msb then uvarintDecodeFrom left (i + 1) (accumulate acc i b) p'
      else .value (accumulate acc i b) (i + 1) p'

/-- `UVarintDecode(W)` (R88) and the response: the value, put through `f`, in `result` and the bytes consumed in
`count`; or the error, with the bytes consumed staying consumed (R93). -/
def uvarintDecode {w : Nat} (f : BitVec w → BitVec w) (s : State) : Out :=
  match uvarintDecodeFrom (maxB w) 0 (0 : BitVec w) s.source with
  | .value v k p => respond (zext64 (f v)) (toCount k) (s.withSource p)
  | .failed e p => raise e (s.withSource p)
  | .neverAnswered => .fault .sourceNeverAnswers

/-- RDUV32 (R89). -/
def execRduv32 (s : State) : Out := uvarintDecode (w := 32) id s

/-- RDUV64 (R90). -/
def execRduv64 (s : State) : Out := uvarintDecode (w := 64) id s

/-- RDSV32 (R91). -/
def execRdsv32 (s : State) : Out := uvarintDecode (w := 32) zigzagDec s

/-- RDSV64 (R92). -/
def execRdsv64 (s : State) : Out := uvarintDecode (w := 64) zigzagDec s

end Sys2Proof.Machine
end

