-- ==== Sys2Proof/Machine/VarintEncode.lean ====
section
/-! DEFINITION. The varint encode commands WRUV32, WRUV64, WRSV32, WRSV64 (44_varint_encode.md). -/

namespace Sys2Proof.Machine

/-- The bytes the loop of R82 hands to the sink for the remaining value `v`, with at most `turns` turns of the loop
left: while `v >= 0x80` its low seven bits with the continuation flag set, then `v >>l 7`; last a byte with the
flag clear. The bytes do not depend on the sink's answers (log 13). -/
def uvarintBytesFrom {w : Nat} : Nat → BitVec w → List Byte
  | 0, v => [v.setWidth 8]
  | turns + 1, v =>
    if v.toNat < 0x80 then [v.setWidth 8]
    else ((v.setWidth 8 &&& 0x7F) ||| 0x80) :: uvarintBytesFrom turns (v >>> 7)

/-- The varint of `u` (R28, R82): the loop "runs at most `MAXB(W) - 1` times". -/
def uvarintBytes {w : Nat} (u : BitVec w) : List Byte := uvarintBytesFrom (maxB w - 1) u

/-- How a run of `SinkPut` calls ended. -/
inductive SinkRun where
  | accepted (p : SinkPort)
  | failed (p : SinkPort)
  | neverAnswered
  deriving DecidableEq, Repr

/-- One `SinkPut` per byte, in order, stopping at the first `Fail` (R81, R82). -/
def putBytes : List Byte → SinkPort → SinkRun
  | [], p => .accepted p
  | b :: bs, p =>
    match sinkPut p b with
    | some (.ok, p') => putBytes bs p'
    | some (.fail, p') => .failed p'
    | none => .neverAnswered

/-- `UVarintEncode(W, u)` (R82): Ok with the number of bytes, or Io with the bytes accepted before the failure left
in the sink (R81). -/
def uvarintEncode {w : Nat} (u : BitVec w) (s : State) : Out :=
  match putBytes (uvarintBytes u) s.sink with
  | .accepted p => respond 0 (toCount (uvarintBytes u).length) (s.withSink p)
  | .failed p => raise .io (s.withSink p)
  | .neverAnswered => .fault .sinkNeverAnswers

/-- WRUV32 (R83). -/
def execWruv32 (value : BitVec 32) (s : State) : Out := uvarintEncode value s

/-- WRUV64 (R84). -/
def execWruv64 (value : BitVec 64) (s : State) : Out := uvarintEncode value s

/-- WRSV32 (R85). -/
def execWrsv32 (value : BitVec 32) (s : State) : Out := uvarintEncode (zigzagEnc value) s

/-- WRSV64 (R86). -/
def execWrsv64 (value : BitVec 64) (s : State) : Out := uvarintEncode (zigzagEnc value) s

end Sys2Proof.Machine
end

