-- ==== Sys2Proof/Machine/Zigzag.lean ====
section
/-! DEFINITION. The zigzag commands ZZENC32, ZZENC64, ZZDEC32, ZZDEC64 (43_zigzag.md): no state, no port, no error
(R78). -/

namespace Sys2Proof.Machine

/-- ZZENC32 (R73). -/
def execZzenc32 (value : BitVec 32) (s : State) : Out := respond (zext64 (zigzagEnc value)) 0 s

/-- ZZENC64 (R74). -/
def execZzenc64 (value : BitVec 64) (s : State) : Out := respond (zigzagEnc value) 0 s

/-- ZZDEC32 (R75). -/
def execZzdec32 (value : BitVec 32) (s : State) : Out := respond (zext64 (zigzagDec value)) 0 s

/-- ZZDEC64 (R76). -/
def execZzdec64 (value : BitVec 64) (s : State) : Out := respond (zigzagDec value) 0 s

end Sys2Proof.Machine
end

