-- ==== Sys2Proof/Machine/Dispatch.lean ====
section
/-! DEFINITION. The meaning of every command (R42), one arm per constructor. -/

namespace Sys2Proof.Machine

def exec (i : Instr) (s : State) : Host.Outcome State Fault Refusal :=
  match i with
  | .bwnew capBytes => Sys2Proof.Machine.execBwnew capBytes s
  | .bwfin => Sys2Proof.Machine.execBwfin s
  | .wrbits32 n value => Sys2Proof.Machine.execWrbits32 n value s
  | .wrbits64 n value => Sys2Proof.Machine.execWrbits64 n value s
  | .bwrdb addr => Sys2Proof.Machine.execBwrdb addr s
  | .brnew lengthBits => Sys2Proof.Machine.execBrnew lengthBits s
  | .brseek pos => Sys2Proof.Machine.execBrseek pos s
  | .rdbits32 n => Sys2Proof.Machine.execRdbits32 n s
  | .rdbits64 n => Sys2Proof.Machine.execRdbits64 n s
  | .brldb addr byte => Sys2Proof.Machine.execBrldb addr byte s
  | .zzenc32 value => Sys2Proof.Machine.execZzenc32 value s
  | .zzenc64 value => Sys2Proof.Machine.execZzenc64 value s
  | .zzdec32 value => Sys2Proof.Machine.execZzdec32 value s
  | .zzdec64 value => Sys2Proof.Machine.execZzdec64 value s
  | .wruv32 value => Sys2Proof.Machine.execWruv32 value s
  | .wruv64 value => Sys2Proof.Machine.execWruv64 value s
  | .wrsv32 value => Sys2Proof.Machine.execWrsv32 value s
  | .wrsv64 value => Sys2Proof.Machine.execWrsv64 value s
  | .rduv32 => Sys2Proof.Machine.execRduv32 s
  | .rduv64 => Sys2Proof.Machine.execRduv64 s
  | .rdsv32 => Sys2Proof.Machine.execRdsv32 s
  | .rdsv64 => Sys2Proof.Machine.execRdsv64 s

end Sys2Proof.Machine
end

