-- ==== Sys2Proof/Machine/Step.lean ====
section
/-! DEFINITION. One step: the next thing the host does (R36, R121). A step on a command is one whole command (D2). -/

namespace Sys2Proof.Machine

/-- One step. The block decodes and runs the command the host presents (R36); a word with an illegal opcode fails with
Illegal before anything else is looked at (R104); reset is one event between commands (R112); with nothing
presented the block waits (log 7). Reset during a command and two commands at once are refused (R113, U9). -/
def step (s : State) : Host.Outcome State Fault Refusal :=
  match s.pending with
  | [] => idle s
  | .command w :: es =>
    match decode w with
    | .instr i => exec i (s.withPending es)
    | .illegal _ => raiseIllegal (s.withPending es)
  | .reset :: es => applyReset (s.withPending es)
  | .attachSource answers after :: es => attachSource answers after (s.withPending es)
  | .attachSink answers after :: es => attachSink answers after (s.withPending es)
  | .resetDuringCommand _ :: _ => .refused .resetDuringCommand
  | .twoCommands _ _ :: _ => .refused .concurrentCommands

/-- The state in which the host presents, next, the command word whose bits are `w` (bits above `nbits` zero). The
block has no program memory and no program counter (R8, R10): commands come from the host alone (log 6). -/
def State.withFetchWord (s : State) (nbits w : Nat) : State :=
  s.withPending (.command (BitVec.ofNat 80 (w % 2 ^ nbits)) :: s.pending)

end Sys2Proof.Machine
end

