-- ==== Sys2Proof/Machine/Flags.lean ====
section
/-! DEFINITION. BFVC has no flags, condition codes or sticky bits (R11): the outcome of a command is the `status` of
its own response. This file gives the numbers of the status (R97) and the bits of the response word (R41). -/

namespace Sys2Proof.Machine

/-- The code of an error kind (R97). -/
def ErrorKind.code : ErrorKind → BitVec 4
  | .io => 1
  | .eof => 2
  | .unexpectedEof => 3
  | .overflow => 4
  | .malformedVarint => 5
  | .illegal => 6

/-- The code of a status (R97). -/
def Status.code : Status → BitVec 4
  | .ok => 0
  | .error e => e.code

/-- The response word `RW`: `status` in `RW[75:72]`, `count` in `RW[71:64]`, `result` in `RW[63:0]` (R41). -/
def Response.word (r : Response) : RespWord := r.status.code ++ r.count ++ r.result

end Sys2Proof.Machine
end

