-- ==== Sys2Proof/Machine/Assembler.lean ====
section
/-! DEFINITION. The assembler spelling of commands and responses (R45, R46). It is notation: no step uses it. -/

namespace Sys2Proof.Machine

/-- The 22 mnemonics of R42 and the two pseudo-instructions of R46. -/
inductive Mnemonic where
  | bwnew | bwfin | wrbits32 | wrbits64 | bwrdb | brnew | brseek | rdbits32 | rdbits64 | brldb
  | zzenc32 | zzenc64 | zzdec32 | zzdec64 | wruv32 | wruv64 | wrsv32 | wrsv64 | rduv32 | rduv64 | rdsv32 | rdsv64
  | bwbytes | brrewind
  deriving DecidableEq, Repr

/-- An operand written as a number, as an unsigned field of `w` bits. DESIGN CHOICE (log 15): a number the field cannot
hold is no operand. -/
def unsignedOperand (w : Nat) (x : Int) : Option (BitVec w) :=
  if 0 ≤ x ∧ x < 2 ^ w then some (BitVec.ofInt w x) else none

/-- A value operand of type width `w`: the number goes to `data`, of which the command uses the low `w` bits (R40). -/
def valueOperand (w : Nat) (x : Int) : Option (BitVec w) := (unsignedOperand 64 x).map (·.setWidth w)

/-- A signed value operand: it "may be written as a negative decimal number" and is assembled as its two's-complement
pattern of `W` bits (R45). -/
def signedOperand (w : Nat) (x : Int) : Option (BitVec w) :=
  if x < 0 then (if -(2 ^ (w - 1) : Int) ≤ x then some (BitVec.ofInt w x) else none) else valueOperand w x

/-- A command without operands (R45). -/
def asm0 (i : Instr) : List Int → Option Instr
  | [] => some i
  | _ => none

/-- A command with one operand (R45). -/
def asm1 {w : Nat} (operand : Int → Option (BitVec w)) (f : BitVec w → Instr) : List Int → Option Instr
  | [x] => (operand x).map f
  | _ => none

/-- A command with two operands, in the order they are written (R45). -/
def asm2 {v w : Nat} (operand : Int → Option (BitVec v)) (operand' : Int → Option (BitVec w))
    (f : BitVec v → BitVec w → Instr) : List Int → Option Instr
  | [x, y] => (operand x).bind fun a => (operand' y).map (f a)
  | _ => none

/-- A mnemonic and its operands in the order of R45, as a command. -/
def assemble : Mnemonic → List Int → Option Instr
  | .bwnew => asm1 (unsignedOperand 64) .bwnew
  | .bwfin => asm0 .bwfin
  | .wrbits32 => asm2 (unsignedOperand 8) (valueOperand 32) .wrbits32
  | .wrbits64 => asm2 (unsignedOperand 8) (valueOperand 64) .wrbits64
  | .bwrdb => asm1 (unsignedOperand 64) .bwrdb
  | .brnew => asm1 (unsignedOperand 64) .brnew
  | .brseek => asm1 (unsignedOperand 64) .brseek
  | .rdbits32 => asm1 (unsignedOperand 8) .rdbits32
  | .rdbits64 => asm1 (unsignedOperand 8) .rdbits64
  | .brldb => asm2 (unsignedOperand 64) (unsignedOperand 8) .brldb
  | .zzenc32 => asm1 (signedOperand 32) .zzenc32
  | .zzenc64 => asm1 (signedOperand 64) .zzenc64
  | .zzdec32 => asm1 (valueOperand 32) .zzdec32
  | .zzdec64 => asm1 (valueOperand 64) .zzdec64
  | .wruv32 => asm1 (valueOperand 32) .wruv32
  | .wruv64 => asm1 (valueOperand 64) .wruv64
  | .wrsv32 => asm1 (signedOperand 32) .wrsv32
  | .wrsv64 => asm1 (signedOperand 64) .wrsv64
  | .rduv32 => asm0 .rduv32
  | .rduv64 => asm0 .rduv64
  | .rdsv32 => asm0 .rdsv32
  | .rdsv64 => asm0 .rdsv64
  | .bwbytes => asm0 bwbytes
  | .brrewind => asm0 brrewind

/-- Which of `result` and `count` a command returns (R42, column "returns"). -/
def returnedFields : Instr → Bool × Bool
  | .bwfin | .bwrdb _ | .rdbits32 _ | .rdbits64 _ => (true, false)
  | .zzenc32 _ | .zzenc64 _ | .zzdec32 _ | .zzdec64 _ => (true, false)
  | .wruv32 _ | .wruv64 _ | .wrsv32 _ | .wrsv64 _ => (false, true)
  | .rduv32 | .rduv64 | .rdsv32 | .rdsv64 => (true, true)
  | .bwnew _ | .wrbits32 _ _ | .wrbits64 _ _ | .brnew _ | .brseek _ | .brldb _ _ => (false, false)

/-- The name of an error (R97). -/
def ErrorKind.text : ErrorKind → String
  | .io => "Io"
  | .eof => "Eof"
  | .unexpectedEof => "UnexpectedEof"
  | .overflow => "Overflow"
  | .malformedVarint => "MalformedVarint"
  | .illegal => "Illegal"

/-- A response as R45 writes it, numbers in decimal. -/
def responseText (i : Instr) (r : Response) : String :=
  match r.status with
  | .error e => "-> " ++ e.text
  | .ok =>
    "-> Ok" ++ (if (returnedFields i).1 then " result=" ++ toString r.result.toNat else "")
      ++ (if (returnedFields i).2 then " count=" ++ toString r.count.toNat else "")

end Sys2Proof.Machine
end

