-- ==== Sys2Proof/Safety.lean ====
section
/-! DEFINITION. The terms in which claims are stated: the invariants the spec names (R12, R15, R17, R18), what it means for
two states to agree on a part of the machine, what a port will answer, and the shape of a varint on the wire (R28,
R79, R80). -/

namespace Sys2Proof.Machine

/-! ## Invariants -/

/-- `STORAGE_BYTES` is in its range (R6). -/
def SizeLegal (s : State) : Prop := 1 ≤ s.storageBytes ∧ s.storageBytes ≤ Config.maxStorageBytes

/-- The invariants (a), (b), (c) of BW (R15). -/
def WriterInv (s : State) : Prop :=
  s.bwCursorBits.toNat ≤ s.bwCapacityBits.toNat ∧ s.bwCapacityBits.toNat ≤ 8 * s.storageBytes ∧
  s.bwHighWaterBits.toNat ≤ s.bwCapacityBits.toNat ∧ s.bwHighWaterBits = s.bwCursorBits

/-- The writer's capacity is a whole number of bytes (R12). -/
def CapacityWhole (s : State) : Prop := s.bwCapacityBits.toNat % 8 = 0

/-- The invariants of BR (R17, R18). -/
def ReaderInv (s : State) : Prop :=
  s.brCursorBits.toNat ≤ s.brLengthBits.toNat ∧ s.brLengthBits.toNat ≤ 8 * s.storageBytes

/-- The bit at position `p` of a storage, if its byte holds a specified value. -/
def Memory.bitAt (m : Memory) (p : Nat) : Option Bool := (m.read (p / 8)).map fun b => b.getLsbD (p % 8)

/-- `BWMem` is in its one form: listed are exactly the bytes of the written prefix, and the bits of the last of them that
stand for pad bits are 0 (log 3, 4). -/
def WriterStorageInv (s : State) : Prop :=
  s.bwMem.wf ∧ (∀ a, (s.bwMem.read a).isSome = true ↔ a < s.bwPrefixBytes) ∧
  ∀ p, s.bwHighWaterBits.toNat ≤ p → s.bwMem.bitAt p ≠ some true

/-- `BRMem` is in its one form and inside the storage (R19, R24). -/
def ReaderStorageInv (s : State) : Prop := s.brMem.wf ∧ ∀ c ∈ s.brMem, c.1 < s.storageBytes

/-- No later draw is the one `BRMem` was filled with at reset (U2; the model's own counters, log 2). -/
def DrawInv (s : State) : Prop := s.brImage < s.draws

/-- The whole invariant of the machine. -/
def MachineInv (s : State) : Prop :=
  SizeLegal s ∧ WriterInv s ∧ CapacityWhole s ∧ ReaderInv s ∧ WriterStorageInv s ∧ ReaderStorageInv s ∧ DrawInv s

/-- Every port call is answered: "an assumption about the environment, not a property of the block" (R119). -/
def PortsAnswer (s : State) : Prop := s.source.after ≠ none ∧ s.sink.after ≠ none

/-! ## Agreement of two states -/

/-- The four state elements of BW agree (R7). -/
def SameBW (s t : State) : Prop :=
  t.bwCapacityBits = s.bwCapacityBits ∧ t.bwCursorBits = s.bwCursorBits ∧
  t.bwHighWaterBits = s.bwHighWaterBits ∧ t.bwMem = s.bwMem

/-- The three state elements of BR agree (R7), unloaded bytes of `BRMem` included. -/
def SameBR (s t : State) : Prop :=
  t.brLengthBits = s.brLengthBits ∧ t.brCursorBits = s.brCursorBits ∧ t.brMem = s.brMem ∧ t.brImage = s.brImage

/-- The two byte ports agree. -/
def SamePorts (s t : State) : Prop := t.source = s.source ∧ t.sink = s.sink

/-- The parameter and what the host has still to do agree. -/
def SameHost (s t : State) : Prop := t.storageBytes = s.storageBytes ∧ t.pending = s.pending

/-- One more response than before, and it is `r`. -/
def Answered (s t : State) (r : Response) : Prop := t.responses = s.responses ++ [r]

/-- `s` with everything of BR taken from `r`. -/
def State.withBR (s r : State) : State :=
  { s with brLengthBits := r.brLengthBits, brCursorBits := r.brCursorBits, brMem := r.brMem, brImage := r.brImage }

/-- `s` with everything of BW taken from `r`. -/
def State.withBW (s r : State) : State :=
  { s with bwCapacityBits := r.bwCapacityBits, bwCursorBits := r.bwCursorBits,
           bwHighWaterBits := r.bwHighWaterBits, bwMem := r.bwMem }

/-- An outcome with its next state changed by `f`. -/
def mapNext (f : State → State) : Out → Out
  | .next t => .next (f t)
  | .fault r => .fault r
  | .refused r => .refused r

/-- Two states that differ at most in the bits of `BWMem` at or above the high-water mark, which are unspecified (R16). -/
def SameSpecified (s t : State) : Prop :=
  t = { s with bwMem := t.bwMem } ∧ ∀ p < s.bwHighWaterBits.toNat, t.bwMem.bitAt p = s.bwMem.bitAt p

/-- Two outcomes that differ at most in unspecified bits of `BWMem`. -/
def SameSpecifiedOut : Out → Out → Prop
  | .next t, .next t' => SameSpecified t t'
  | .fault f, .fault f' => f = f'
  | .refused r, .refused r' => r = r'
  | _, _ => False

/-! ## Commands by unit -/

/-- The unit that executes a command: `op[7:4]` (R42). -/
inductive Unit5 where
  | bw | br | zz | ve | vd
  deriving DecidableEq, Repr

/-- The unit of each command (R42). -/
def unitOf : Instr → Unit5
  | .bwnew _ | .bwfin | .wrbits32 _ _ | .wrbits64 _ _ | .bwrdb _ => .bw
  | .brnew _ | .brseek _ | .rdbits32 _ | .rdbits64 _ | .brldb _ _ => .br
  | .zzenc32 _ | .zzenc64 _ | .zzdec32 _ | .zzdec64 _ => .zz
  | .wruv32 _ | .wruv64 _ | .wrsv32 _ | .wrsv64 _ => .ve
  | .rduv32 | .rduv64 | .rdsv32 | .rdsv64 => .vd

/-- The field `op` alone selects the command (R42, R44): every word with this `op` decodes to `f` of the word. -/
def Selects (op : Byte) (f : CmdWord → Instr) : Prop := ∀ w, opField w = op → decode w = .instr (f w)

/-! ## Fields in storage -/

/-- An `n`-bit field of value `v` has been written at bit position `c` (R26, R54): its bits hold `v`, the specified bits
below it are as before, and no byte other than the touched ones is written. -/
def FieldWritten (c n v : Nat) (m m' : Memory) : Prop :=
  (∀ j < n, m'.bitAt (c + j) = some (v.testBit j)) ∧
  (∀ p < c, ∀ b, m.bitAt p = some b → m'.bitAt p = some b) ∧
  ∀ a, ¬(c / 8 ≤ a ∧ a < c / 8 + bytesTouched c n) → m'.read a = m.read a

/-- The bit at position `p` of a byte array (R24). -/
def arrayBit (byteAt : Nat → Byte) (p : Nat) : Bool := (byteAt (p / 8)).getLsbD (p % 8)

/-! ## What the ports will answer -/

/-- The answer of the source to its `j`-th call from now on, counting from 0 (R29); `none`: no answer. -/
def srcAnswerAt (p : SrcPort) (j : Nat) : Option SrcAnswer :=
  match p.answers[j]? with
  | some a => some a
  | none => p.after

/-- The answer of the sink to its `j`-th call from now on, counting from 0 (R30); `none`: no answer. -/
def sinkAnswerAt (p : SinkPort) (j : Nat) : Option SinkAnswer :=
  match p.answers[j]? with
  | some a => some a
  | none => p.after

/-- The source gives the bytes `bs` next. -/
def SourceGives (p : SrcPort) (bs : List Byte) : Prop :=
  ∀ j, ∀ b, bs[j]? = some b → srcAnswerAt p j = some (.byte b)

/-- The sink accepts the next `k` bytes. -/
def SinkAccepts (p : SinkPort) (k : Nat) : Prop := ∀ j < k, sinkAnswerAt p j = some .ok

/-- The source after `calls` calls that consumed `bytes` bytes, counted as `SrcAnswer.consumed` counts them (log 16). -/
def srcAfter (p : SrcPort) (calls bytes : Nat) : SrcPort := ⟨p.answers.drop calls, p.after, p.taken + bytes⟩

/-- The sink after `calls` calls that accepted `bs`, recorded as `SinkAnswer.accepts` records them (log 16). -/
def sinkAfter (p : SinkPort) (calls : Nat) (bs : List Byte) : SinkPort := ⟨p.answers.drop calls, p.after, p.accepted ++ bs⟩

/-! ## Varints on the wire -/

/-- `UVarintLen(u)` is `k` (R80): the least `k >= 1` with `u < 2^(7k)`. -/
def IsVarintLength (u k : Nat) : Prop := 1 ≤ k ∧ u < 2 ^ (7 * k) ∧ (1 < k → 2 ^ (7 * (k - 1)) ≤ u)

/-- `bs` is the varint of `u` (R28, R79): byte `j` carries `u[7j+6 : 7j]`, every byte but the last has its continuation flag
set, and there is no byte too many. -/
def IsVarint (u : Nat) (bs : List Byte) : Prop :=
  IsVarintLength u bs.length ∧
  ∀ j b, bs[j]? = some b → b.toNat = u / 2 ^ (7 * j) % 128 + (if j + 1 < bs.length then 128 else 0)

/-- Every byte has its continuation flag set (R28). -/
def Flagged (bs : List Byte) : Prop := ∀ b ∈ bs, b.msb = true

/-- A terminated varint, minimal or not (R94): its last byte, and only that, has the flag clear. -/
def Terminated (bs : List Byte) : Prop := ∃ init last, bs = init ++ [last] ∧ Flagged init ∧ last.msb = false

/-- The number the payload bits make, least significant group first (R28). -/
def payloadSum : List Byte → Nat
  | [] => 0
  | b :: bs => b.toNat % 128 + 128 * payloadSum bs

/-- What a VE command does with the varint `bs` on its sink (R81, R82): Ok and the count where all bytes are accepted; Io
and the bytes accepted so far where one is refused, with no further call. (That the refused call itself leaves no byte in
the sink is the model's choice, log 16.) -/
def EncodesTo (i : Instr) (bs : List Byte) (s : State) : Prop :=
  (SinkAccepts s.sink bs.length →
    exec i s = .next { s with
      sink := sinkAfter s.sink bs.length bs
      responses := s.responses ++ [⟨.ok, BitVec.ofNat 8 bs.length, 0⟩] }) ∧
  ∀ m < bs.length, SinkAccepts s.sink m → sinkAnswerAt s.sink m = some .fail →
    exec i s = .next { s with
      sink := sinkAfter s.sink (m + 1) (bs.take m)
      responses := s.responses ++ [⟨.error .io, 0, 0⟩] }

/-- The response and the source of a VD command that has made `calls` calls and consumed `bytes` bytes. (That a call
answered `Fail` counts as consuming none is the model's choice, log 16.) -/
def DecodeEnds (i : Instr) (s : State) (calls bytes : Nat) (r : Response) : Prop :=
  exec i s = .next { s with source := srcAfter s.source calls bytes, responses := s.responses ++ [r] }

/-- The number a zigzag code stands beside: `2v` for `v >= 0` and `-2v - 1` for `v < 0` (R77 (a)). -/
def zigzagNumber (v : Int) : Nat := (if 0 ≤ v then 2 * v else -2 * v - 1).toNat

/-- The VE commands with the number whose varint they hand to the sink (R83 to R86). -/
def veNumber : Instr → Option Nat
  | .wruv32 u => some u.toNat
  | .wruv64 u => some u.toNat
  | .wrsv32 x => some (zigzagNumber x.toInt)
  | .wrsv64 x => some (zigzagNumber x.toInt)
  | _ => none

/-- The VD commands with their type width (R42). -/
def vdWidth : Instr → Option Nat
  | .rduv32 | .rdsv32 => some 32
  | .rduv64 | .rdsv64 => some 64
  | _ => none

/-- The host presents one WRBITS64 for each field, a bit count and a value (R61). -/
def presentWrites (fields : List (Byte × BitVec 64)) : List HostEvent :=
  fields.map fun f => .command (encode (.wrbits64 f.1 f.2))

/-- The host presents one RDBITS64 for each field, with the field's bit count (R69). -/
def presentReads (fields : List (Byte × BitVec 64)) : List HostEvent :=
  fields.map fun f => .command (encode (.rdbits64 f.1))

/-- The sum of the bit counts of a list of fields. -/
def totalBits : List (Byte × BitVec 64) → Nat
  | [] => 0
  | f :: fs => f.1.toNat + totalBits fs

/-- The reader's bytes agree with every specified bit of the writer's written prefix: what BWRDB and BRLDB carry over,
whatever the pad bits were (R22, R64). -/
def CarriedOver (writer reader : State) : Prop :=
  ∀ p < writer.bwHighWaterBits.toNat, ∀ b, writer.bwMem.bitAt p = some b → arrayBit reader.brByte p = b

end Sys2Proof.Machine
end

