-- ==== Sys2Proof/Certificates/Slice0/Obligations.lean ====
section
/-! DEFINITION. What is claimed of the model, from the numbered rules of spec/. Every statement is about every state, size
of storage and environment that meets its hypotheses. -/

open Sys2Proof Sys2Proof.Machine

/-! ## Encoding (30_encoding.md) -/

/-- R39, R42: decoding the word of a command gives the command back, for every command and every operand. -/
def Obligations.DecodeEncodeRoundTrip : Prop := ∀ i, decode (encode i) = .instr i

/-- R42, R45: a word as the assembler writes it selects a command, and is that command's word. -/
def Obligations.WellFormedWordRoundTrip : Prop :=
  ∀ w, wellFormedWord w = true → ∃ i, decode w = .instr i ∧ encode i = w

/-- R43, R104: the illegal opcodes are exactly the listed ranges, and a word with one completes with Illegal and does
nothing else. -/
def Obligations.IllegalOpcodeCompletes : Prop :=
  ∀ w : CmdWord,
    let op := (opField w).toNat
    let listed := (0x05 ≤ op ∧ op ≤ 0x0F) ∨ (0x15 ≤ op ∧ op ≤ 0x1F) ∨ (0x24 ≤ op ∧ op ≤ 0x2F) ∨
      (0x34 ≤ op ∧ op ≤ 0x3F) ∨ 0x44 ≤ op
    (listed ↔ ¬∃ i, decode w = .instr i) ∧
    (listed → ErrorKind.illegal.code = 6 ∧ ∀ s es, s.pending = .command w :: es →
      step s = .next { s with pending := es, responses := s.responses ++ [⟨.error .illegal, 0, 0⟩] })

/-- R44: two words that agree on `op` and on the fields that command uses are the same command. -/
def Obligations.UnusedFieldsIgnored : Prop :=
  ∀ w w' : CmdWord, opField w = opField w' →
    (∀ r, fieldUse (opField w) = some r →
      (r.usesN = true → nField w = nField w') ∧
      (dataField w).toNat % 2 ^ r.dataBits = (dataField w').toNat % 2 ^ r.dataBits) →
    decode w = decode w'

/-- Words the spec writes out (41 to 45) decode to the commands it says they are. -/
def Obligations.SpecWordsDecode : Prop :=
  decode 0x00000000000000000001 = .instr (.bwnew 1) ∧
  decode 0x0205000000000000001A = .instr (.wrbits32 5 0b11010) ∧
  decode 0x14D50000000000000000 = .instr (.brldb 0 0xD5) ∧
  decode 0x200000000000FFFFFFFF = .instr (.zzenc32 0xFFFFFFFF) ∧
  decode 0x3300FFFFFFFFFFFFFFFE = .instr (.wrsv64 0xFFFFFFFFFFFFFFFE) ∧
  decode 0x40FFFFFFFFFFFFFFFFFF = .instr .rduv32

/-- R41: the three fields of the response word. -/
def Obligations.ResponseWordFields : Prop :=
  ∀ r : Response, r.word.extractLsb' 72 4 = r.status.code ∧ r.word.extractLsb' 64 8 = r.count ∧
    r.word.extractLsb' 0 64 = r.result

/-- R97: the status codes, and that 7 to 15 are never produced. -/
def Obligations.StatusCodesAsListed : Prop :=
  Status.ok.code = 0 ∧ ErrorKind.io.code = 1 ∧ ErrorKind.eof.code = 2 ∧ ErrorKind.unexpectedEof.code = 3 ∧
  ErrorKind.overflow.code = 4 ∧ ErrorKind.malformedVarint.code = 5 ∧ ErrorKind.illegal.code = 6 ∧
  ∀ st : Status, st.code.toNat < 7

/-! ## Steps and reset -/

/-- R36, R121: a step on a presented command word is the command it decodes to. -/
def Obligations.StepRunsPresentedCommand : Prop :=
  ∀ s w es i, s.pending = .command w :: es → decode w = .instr i → step s = exec i { s with pending := es }

/-- The model's choice (log 7; R112 "after reset the block waits for the first command"): with nothing presented
nothing changes. -/
def Obligations.NothingPresentedNothingChanges : Prop := ∀ s, s.pending = [] → step s = .next s

/-- R113, U5, U9: reset during a command and two commands at once are refused. -/
def Obligations.HostMisuseRefused : Prop :=
  ∀ s es w w', (s.pending = .resetDuringCommand w :: es → step s = .refused .resetDuringCommand) ∧
    (s.pending = .twoCommands w w' :: es → step s = .refused .concurrentCommands)

/-- R23, R112: what reset leaves, for every size and environment. The storages hold no specified byte. (That `State.reset` has
size 16 and the reference environment is the model's choice, log 1 and 5.) -/
def Obligations.ResetLeavesRegistersZero : Prop :=
  ∀ size src snk, let s := State.afterReset size src snk
    s.bwCapacityBits = 0 ∧ s.bwCursorBits = 0 ∧ s.bwHighWaterBits = 0 ∧ s.brLengthBits = 0 ∧ s.brCursorBits = 0 ∧
    (∀ a, s.bwMem.read a = none ∧ s.brMem.read a = none) ∧ s.source = src ∧ s.sink = snk ∧
    State.reset = State.afterReset 16 .empty .empty

/-- R112: the reset event, from every state. -/
def Obligations.ResetEventClearsBlock : Prop :=
  ∀ s es, s.pending = .reset :: es → ∃ t, step s = .next t ∧
    t.bwCapacityBits = 0 ∧ t.bwCursorBits = 0 ∧ t.bwHighWaterBits = 0 ∧ t.brLengthBits = 0 ∧ t.brCursorBits = 0 ∧
    (∀ a, t.bwMem.read a = none ∧ t.brMem.read a = none) ∧ SamePorts s t ∧ t.storageBytes = s.storageBytes ∧ t.pending = es ∧ t.responses = s.responses

/-- U2, R19: the bytes of `BRMem` that no BRLDB has loaded are one arbitrary array fixed at reset: reset takes a draw that no
step has used before, and no other step changes what such a byte reads as (that a draw has a number is the model's
choice, log 2). -/
def Obligations.UnloadedReaderBytesAreFixed : Prop :=
  ∀ s t, step s = .next t →
    (∀ es, s.pending = .reset :: es → ∀ a, t.brByte a = Config.freeByte s.draws a ∧ t.draws = s.draws + 1) ∧
    ((∀ es, s.pending ≠ .reset :: es) → ∀ a, t.brMem.read a = none → t.brByte a = s.brByte a)

/-- R121: attaching another source or sink touches neither the block nor what the streams have carried so far (that the
two counts go on is the model's choice, log 14). -/
def Obligations.AttachTouchesOnlyThePort : Prop :=
  ∀ s es, (∀ l a, s.pending = .attachSource l a :: es →
      step s = .next { s with pending := es, source := ⟨l, a, s.source.taken⟩ }) ∧
    ∀ l a, s.pending = .attachSink l a :: es →
      step s = .next { s with pending := es, sink := ⟨l, a, s.sink.accepted⟩ }

/-- The invariant of the machine holds after reset, whatever the size and the environment. (The model's own in it: the
size and the ports of `State.reset`, log 1 and 5; the draw counters of `DrawInv`, log 2; the forms of the two storages,
log 3 and 4.) -/
def Obligations.ResetMeetsInvariant : Prop :=
  MachineInv State.reset ∧ ∀ size src snk, 1 ≤ size → size ≤ Config.maxStorageBytes → MachineInv (State.afterReset size src snk)

/-- R15: the invariants (a), (b), (c) of BW hold after reset and after every step from a state in which they hold. -/
def Obligations.WriterInvariantKept : Prop :=
  (∀ size src snk, WriterInv (State.afterReset size src snk)) ∧
  ∀ s t, WriterInv s → step s = .next t → WriterInv t

/-- R17, R18: the invariants of BR hold after reset and after every step from a state in which they hold. -/
def Obligations.ReaderInvariantKept : Prop :=
  (∀ size src snk, ReaderInv (State.afterReset size src snk)) ∧
  ∀ s t, ReaderInv s → step s = .next t → ReaderInv t

/-- Every step keeps the whole invariant: sizes, R12, R15, R17, R18, the canonical form of both storages, that listed in
`BWMem` is exactly the written prefix, and that no later draw is the reader's. (The model's own in it: the draw counters
of `DrawInv`, log 2; the forms of the two storages, log 3 and 4.) -/
def Obligations.StepKeepsInvariant : Prop := ∀ s t, MachineInv s → step s = .next t → MachineInv t

/-- R36, R119: where the invariant holds and the ports answer, every presented command word, legal or not, is completed:
no fault and no refusal stands in its way. -/
def Obligations.EveryPresentedCommandCompletes : Prop :=
  ∀ s w es, MachineInv s → PortsAnswer s → s.pending = .command w :: es → ∃ t, step s = .next t

/-- R41: every command that completes gives exactly one response; its `count` is 0 unless a varint command gives it. -/
def Obligations.OneResponsePerCommand : Prop :=
  ∀ i s t, exec i s = .next t → ∃ r, Answered s t r ∧ (unitOf i ≠ .ve → unitOf i ≠ .vd → r.count = 0)

/-- R98: a command that fails answers zeros and changes no register and no storage byte; only a varint command's streams
have moved. -/
def Obligations.FailureLeavesBlockUnchanged : Prop :=
  ∀ s t w es r, s.pending = .command w :: es → step s = .next t → Answered s t r → r.status ≠ .ok →
    r.count = 0 ∧ r.result = 0 ∧ SameBW s t ∧ SameBR s t ∧ t.storageBytes = s.storageBytes ∧ t.pending = es ∧
    t.draws = s.draws ∧ ((∀ i, decode w = .instr i → unitOf i ≠ .ve ∧ unitOf i ≠ .vd) → SamePorts s t)

/-- R7, R12, R19, R24: each state element changes only at the commands the spec lists as writing it. -/
def Obligations.StateWrittenOnlyByItsCommands : Prop :=
  ∀ i s t, exec i s = .next t →
    ((∀ c, i ≠ .bwnew c) → t.bwCapacityBits = s.bwCapacityBits) ∧
    ((∀ c, i ≠ .bwnew c) → (∀ n v, i ≠ .wrbits32 n v) → (∀ n v, i ≠ .wrbits64 n v) → SameBW s t) ∧
    ((∀ l, i ≠ .brnew l) → t.brLengthBits = s.brLengthBits) ∧
    ((∀ l, i ≠ .brnew l) → (∀ p, i ≠ .brseek p) → (∀ n, i ≠ .rdbits32 n) → (∀ n, i ≠ .rdbits64 n) →
      t.brCursorBits = s.brCursorBits) ∧
    ((∀ a b, i ≠ .brldb a b) → t.brMem = s.brMem) ∧ t.brImage = s.brImage ∧
    ((∀ a, i ≠ .bwrdb a) → t.draws = s.draws) ∧
    (unitOf i ≠ .vd → t.source = s.source) ∧ (unitOf i ≠ .ve → t.sink = s.sink) ∧ SameHost s t

/-- R22: no command of BW reads or writes anything of BR, and no command of BR anything of BW: whatever stands in the
other unit, the outcome is the same, and the other unit keeps it. -/
def Obligations.UnitsAreIndependent : Prop :=
  ∀ i s r, (unitOf i = .bw → exec i (s.withBR r) = mapNext (·.withBR r) (exec i s)) ∧
    (unitOf i = .br → exec i (s.withBW r) = mapNext (·.withBW r) (exec i s))

/-- R16, U1, U3: the bits of `BWMem` at or above the high-water mark never matter: two states that meet R15 and differ only
there stay so, step by step, and give the same responses. -/
def Obligations.UnspecifiedBitsNeverLeak : Prop :=
  ∀ s t, WriterInv s → SameSpecified s t → SameSpecifiedOut (step s) (step t)

/-! ## Bit tables and fields (40_bit_tables.md) -/

/-- R50, R51: `BitLoc` and the mask table. -/
def Obligations.BitLocGivesByteAndMask : Prop :=
  (∀ p, (bitLoc p).1 = p / 8 ∧ (bitLoc p).2.toNat = 2 ^ (p % 8)) ∧
  [0, 1, 2, 3, 4, 5, 6, 7].map (fun i => (bitLoc i).2) = [0x01, 0x02, 0x04, 0x08, 0x10, 0x20, 0x40, 0x80]

/-- R52: `BitRead` reads one bit; `BitWrite` sets that bit and changes no other specified bit and no other byte. -/
def Obligations.BitWriteChangesOneBit : Prop :=
  (∀ f p, bitRead f p = (f (p / 8)).getLsbD (p % 8)) ∧
  ∀ m p b, (bitWrite m p b).bitAt p = some b ∧
    (∀ q c, q ≠ p → m.bitAt q = some c → (bitWrite m p b).bitAt q = some c) ∧
    ∀ a, a ≠ p / 8 → (bitWrite m p b).read a = m.read a

/-- R55: the byte-wise forms of extraction and insertion equal the bit-wise ones; which bits an insertion puts into byte `j`
of the touched ones; and that a field touches at most nine. -/
def Obligations.BytewiseFormsAgree : Prop :=
  (∀ f c n, fieldExtractBytewise f c n = fieldExtract f c n) ∧
  (∀ (w : Nat) (m : Memory) (c n : Nat) (v : BitVec w) (a : Nat),
    (fieldInsertBytewise m c n v (bytesTouched c n)).read a = (fieldInsert m c v n).read a) ∧
  (∀ (w c n : Nat) (v : BitVec w) (j b : Nat) (old : Byte), b < 8 →
    (insertedByte c n v j old).getLsbD b =
      if c % 8 ≤ 8 * j + b ∧ 8 * j + b < c % 8 + n then v.getLsbD (8 * j + b - c % 8) else old.getLsbD b) ∧
  ∀ c n, n ≤ 64 → bytesTouched c n ≤ 9

/-! ## BitWriter (41_bitwriter.md) -/

/-- R59: BWNEW. -/
def Obligations.BwnewResult : Prop :=
  Selects 0x00 (fun w => .bwnew (dataField w)) ∧
  ∀ cap s, SizeLegal s →
    (s.storageBytes < cap.toNat →
      exec (.bwnew cap) s = .next { s with responses := s.responses ++ [⟨.error .overflow, 0, 0⟩] }) ∧
    (cap.toNat ≤ s.storageBytes → ∃ t, exec (.bwnew cap) s = .next t ∧
      t.bwCapacityBits.toNat = 8 * cap.toNat ∧ t.bwCursorBits = 0 ∧ t.bwHighWaterBits = 0 ∧
      (∀ a, t.bwMem.read a = none) ∧ SameBR s t ∧ SamePorts s t ∧ SameHost s t ∧ t.draws = s.draws ∧
      Answered s t ⟨.ok, 0, 0⟩)

/-- R62: BWFIN. -/
def Obligations.BwfinResult : Prop :=
  Selects 0x01 (fun _ => .bwfin) ∧
  ∀ s, ∃ r : Data, r.toNat = (s.bwHighWaterBits.toNat + 7) / 8 ∧
    exec .bwfin s = .next { s with responses := s.responses ++ [⟨.ok, 0, r⟩] }

/-- R60: WRBITS32. The field goes to the cursor; the memory written to is the bytes the field touches. -/
def Obligations.Wrbits32Result : Prop :=
  Selects 0x02 (fun w => .wrbits32 (nField w) (data32Field w)) ∧
  ∀ n v s,
    (32 < n.toNat ∨ s.bwCapacityBits.toNat < s.bwCursorBits.toNat + n.toNat →
      exec (.wrbits32 n v) s = .next { s with responses := s.responses ++ [⟨.error .overflow, 0, 0⟩] }) ∧
    (n.toNat ≤ 32 → s.bwCursorBits.toNat + n.toNat ≤ s.bwCapacityBits.toNat →
      s.bwCapacityBits.toNat ≤ 8 * s.storageBytes → ∃ t, exec (.wrbits32 n v) s = .next t ∧
      FieldWritten s.bwCursorBits.toNat n.toNat v.toNat s.bwMem t.bwMem ∧
      t.bwCapacityBits = s.bwCapacityBits ∧ t.bwCursorBits.toNat = s.bwCursorBits.toNat + n.toNat ∧
      t.bwHighWaterBits.toNat = max s.bwHighWaterBits.toNat (s.bwCursorBits.toNat + n.toNat) ∧
      SameBR s t ∧ SamePorts s t ∧ SameHost s t ∧ t.draws = s.draws ∧ Answered s t ⟨.ok, 0, 0⟩)

/-- R61: WRBITS64; and for `n <= 32` it has the same effect as WRBITS32 with the low 32 value bits. -/
def Obligations.Wrbits64Result : Prop :=
  Selects 0x03 (fun w => .wrbits64 (nField w) (dataField w)) ∧
  ∀ n v s,
    (64 < n.toNat ∨ s.bwCapacityBits.toNat < s.bwCursorBits.toNat + n.toNat →
      exec (.wrbits64 n v) s = .next { s with responses := s.responses ++ [⟨.error .overflow, 0, 0⟩] }) ∧
    (n.toNat ≤ 64 → s.bwCursorBits.toNat + n.toNat ≤ s.bwCapacityBits.toNat →
      s.bwCapacityBits.toNat ≤ 8 * s.storageBytes → ∃ t, exec (.wrbits64 n v) s = .next t ∧
      FieldWritten s.bwCursorBits.toNat n.toNat v.toNat s.bwMem t.bwMem ∧
      t.bwCapacityBits = s.bwCapacityBits ∧ t.bwCursorBits.toNat = s.bwCursorBits.toNat + n.toNat ∧
      t.bwHighWaterBits.toNat = max s.bwHighWaterBits.toNat (s.bwCursorBits.toNat + n.toNat) ∧
      SameBR s t ∧ SamePorts s t ∧ SameHost s t ∧ t.draws = s.draws ∧ Answered s t ⟨.ok, 0, 0⟩) ∧
    (n.toNat ≤ 32 → exec (.wrbits64 n v) s = exec (.wrbits32 n (v.setWidth 32)) s)

/-- R63: BWRDB. Below the high-water mark the bits are the written ones; the pad bits are those of a free byte of a draw
that no other read shares; a byte without pad bits draws nothing (the counter of draws is the model's own, log 2). -/
def Obligations.BwrdbResult : Prop :=
  Selects 0x04 (fun w => .bwrdb (dataField w)) ∧
  ∀ addr s,
    ((s.bwHighWaterBits.toNat + 7) / 8 ≤ addr.toNat →
      exec (.bwrdb addr) s = .next { s with responses := s.responses ++ [⟨.error .overflow, 0, 0⟩] }) ∧
    (addr.toNat < (s.bwHighWaterBits.toNat + 7) / 8 → s.bwHighWaterBits.toNat ≤ 8 * s.storageBytes →
      ∃ t, ∃ r : Data, exec (.bwrdb addr) s = .next t ∧ Answered s t ⟨.ok, 0, r⟩ ∧ r.toNat < 256 ∧
      (∀ j < 8, 8 * addr.toNat + j < s.bwHighWaterBits.toNat → ∀ b,
        s.bwMem.bitAt (8 * addr.toNat + j) = some b → r.getLsbD j = b) ∧
      (∀ j < 8, s.bwHighWaterBits.toNat ≤ 8 * addr.toNat + j →
        r.getLsbD j = (Config.freeByte s.draws addr.toNat).getLsbD j ∧ t.draws = s.draws + 1) ∧
      (8 * addr.toNat + 8 ≤ s.bwHighWaterBits.toNat → t.draws = s.draws) ∧
      SameBW s t ∧ SameBR s t ∧ SamePorts s t ∧ SameHost s t)

/-- R64 (c), R27: fields written one after another are packed without padding: the cursor moves by the sum of their bit
counts, and every write is answered Ok. -/
def Obligations.WritesPackBackToBack : Prop :=
  ∀ (fields : List (Byte × BitVec 64)) (s : State), WriterInv s → (∀ f ∈ fields, f.1.toNat ≤ 64) →
    s.bwCursorBits.toNat + totalBits fields ≤ s.bwCapacityBits.toNat → s.pending = presentWrites fields →
    ∃ t, Host.Core.run core fields.length s = .next t ∧
      t.bwCursorBits.toNat = s.bwCursorBits.toNat + totalBits fields ∧
      t.responses = s.responses ++ List.replicate fields.length ⟨.ok, 0, 0⟩ ∧ t.pending = []

/-! ## BitReader (42_bitreader.md) -/

/-- R66: BRNEW. -/
def Obligations.BrnewResult : Prop :=
  Selects 0x10 (fun w => .brnew (dataField w)) ∧
  ∀ len s, SizeLegal s →
    (8 * s.storageBytes < len.toNat →
      exec (.brnew len) s = .next { s with responses := s.responses ++ [⟨.error .overflow, 0, 0⟩] }) ∧
    (len.toNat ≤ 8 * s.storageBytes → ∃ t, exec (.brnew len) s = .next t ∧
      t.brLengthBits.toNat = len.toNat ∧ t.brCursorBits = 0 ∧ t.brMem = s.brMem ∧ t.brImage = s.brImage ∧
      SameBW s t ∧ SamePorts s t ∧ SameHost s t ∧ t.draws = s.draws ∧ Answered s t ⟨.ok, 0, 0⟩)

/-- R70: BRSEEK. -/
def Obligations.BrseekResult : Prop :=
  Selects 0x11 (fun w => .brseek (dataField w)) ∧
  ∀ pos s,
    (s.brLengthBits.toNat < pos.toNat →
      exec (.brseek pos) s = .next { s with responses := s.responses ++ [⟨.error .overflow, 0, 0⟩] }) ∧
    (pos.toNat ≤ s.brLengthBits.toNat → ∃ t, exec (.brseek pos) s = .next t ∧
      t.brCursorBits.toNat = pos.toNat ∧ t.brLengthBits = s.brLengthBits ∧ t.brMem = s.brMem ∧
      t.brImage = s.brImage ∧ SameBW s t ∧ SamePorts s t ∧ SameHost s t ∧ t.draws = s.draws ∧
      Answered s t ⟨.ok, 0, 0⟩)

/-- R68, R65: RDBITS32. -/
def Obligations.Rdbits32Result : Prop :=
  Selects 0x12 (fun w => .rdbits32 (nField w)) ∧
  ∀ n s,
    (32 < n.toNat →
      exec (.rdbits32 n) s = .next { s with responses := s.responses ++ [⟨.error .overflow, 0, 0⟩] }) ∧
    (n.toNat ≤ 32 → s.brLengthBits.toNat < s.brCursorBits.toNat + n.toNat →
      exec (.rdbits32 n) s = .next { s with responses := s.responses ++ [⟨.error .eof, 0, 0⟩] }) ∧
    (n.toNat ≤ 32 → s.brCursorBits.toNat + n.toNat ≤ s.brLengthBits.toNat →
      s.brLengthBits.toNat ≤ 8 * s.storageBytes → ∃ t, ∃ r : Data, exec (.rdbits32 n) s = .next t ∧
      (∀ j, r.getLsbD j = (decide (j < n.toNat) && arrayBit s.brByte (s.brCursorBits.toNat + j))) ∧
      r.toNat < 2 ^ n.toNat ∧ t.brCursorBits.toNat = s.brCursorBits.toNat + n.toNat ∧
      t.brLengthBits = s.brLengthBits ∧ t.brMem = s.brMem ∧ t.brImage = s.brImage ∧
      SameBW s t ∧ SamePorts s t ∧ SameHost s t ∧ t.draws = s.draws ∧ Answered s t ⟨.ok, 0, r⟩)

/-- R69, R65: RDBITS64; and for `n <= 32` it returns what RDBITS32 returns. -/
def Obligations.Rdbits64Result : Prop :=
  Selects 0x13 (fun w => .rdbits64 (nField w)) ∧
  ∀ n s,
    (64 < n.toNat →
      exec (.rdbits64 n) s = .next { s with responses := s.responses ++ [⟨.error .overflow, 0, 0⟩] }) ∧
    (n.toNat ≤ 64 → s.brLengthBits.toNat < s.brCursorBits.toNat + n.toNat →
      exec (.rdbits64 n) s = .next { s with responses := s.responses ++ [⟨.error .eof, 0, 0⟩] }) ∧
    (n.toNat ≤ 64 → s.brCursorBits.toNat + n.toNat ≤ s.brLengthBits.toNat →
      s.brLengthBits.toNat ≤ 8 * s.storageBytes → ∃ t, ∃ r : Data, exec (.rdbits64 n) s = .next t ∧
      (∀ j, r.getLsbD j = (decide (j < n.toNat) && arrayBit s.brByte (s.brCursorBits.toNat + j))) ∧
      r.toNat < 2 ^ n.toNat ∧ t.brCursorBits.toNat = s.brCursorBits.toNat + n.toNat ∧
      t.brLengthBits = s.brLengthBits ∧ t.brMem = s.brMem ∧ t.brImage = s.brImage ∧
      SameBW s t ∧ SamePorts s t ∧ SameHost s t ∧ t.draws = s.draws ∧ Answered s t ⟨.ok, 0, r⟩) ∧
    (n.toNat ≤ 32 → exec (.rdbits64 n) s = exec (.rdbits32 n) s)

/-- R67: BRLDB. -/
def Obligations.BrldbResult : Prop :=
  Selects 0x14 (fun w => .brldb (dataField w) (nField w)) ∧
  ∀ addr byte s,
    (s.storageBytes ≤ addr.toNat →
      exec (.brldb addr byte) s = .next { s with responses := s.responses ++ [⟨.error .overflow, 0, 0⟩] }) ∧
    (addr.toNat < s.storageBytes → ∃ t, exec (.brldb addr byte) s = .next t ∧
      t.brMem.read addr.toNat = some byte ∧ t.brByte addr.toNat = byte ∧
      (∀ a, a ≠ addr.toNat → t.brMem.read a = s.brMem.read a ∧ t.brByte a = s.brByte a) ∧
      t.brLengthBits = s.brLengthBits ∧ t.brCursorBits = s.brCursorBits ∧
      SameBW s t ∧ SamePorts s t ∧ SameHost s t ∧ t.draws = s.draws ∧ Answered s t ⟨.ok, 0, 0⟩)

/-- R64 (b): what WRBITS64 wrote at the cursor `c`, moved to the reader (whose bytes agree with the written prefix wherever it
holds specified bits, pad bits being anything), is what RDBITS64 reads at `c`. -/
def Obligations.BitBufferRoundTrip : Prop :=
  ∀ (n : Byte) (v : BitVec 64) (s s' u : State),
    WriterInv s → ReaderInv u → n.toNat ≤ 64 →
    s.bwCursorBits.toNat + n.toNat ≤ s.bwCapacityBits.toNat →
    exec (.wrbits64 n v) s = .next s' →
    CarriedOver s' u → u.brCursorBits = s.bwCursorBits → s.bwCursorBits.toNat + n.toNat ≤ u.brLengthBits.toNat →
    ∃ t r, exec (.rdbits64 n) u = .next t ∧ Answered u t ⟨.ok, 0, r⟩ ∧ r.toNat = v.toNat % 2 ^ n.toNat

/-- R71: reading with the bit counts the writer used, from where it began, returns the written values masked to their
widths, whatever byte boundaries the fields cross. -/
def Obligations.FieldSequenceRoundTrip : Prop :=
  ∀ (fields : List (Byte × BitVec 64)) (s s' u : State),
    WriterInv s → ReaderInv u → (∀ f ∈ fields, f.1.toNat ≤ 64) →
    s.bwCursorBits.toNat + totalBits fields ≤ s.bwCapacityBits.toNat →
    s.pending = presentWrites fields → Host.Core.run core fields.length s = .next s' →
    CarriedOver s' u → u.brCursorBits = s.bwCursorBits →
    s.bwCursorBits.toNat + totalBits fields ≤ u.brLengthBits.toNat → u.pending = presentReads fields →
    ∃ t, Host.Core.run core fields.length u = .next t ∧
      t.responses = u.responses ++ fields.map fun f => ⟨.ok, 0, BitVec.ofNat 64 (f.2.toNat % 2 ^ f.1.toNat)⟩

/-! ## Zigzag (43_zigzag.md) -/

/-- R73, R74: ZZENC32 and ZZENC64, by the formula of R72 and in the closed form of R77 (a); nothing but the response
changes, and `result[63:32] = 0` for the 32-bit form (R41). -/
def Obligations.ZigzagEncodeResult : Prop :=
  Selects 0x20 (fun w => .zzenc32 (data32Field w)) ∧ Selects 0x21 (fun w => .zzenc64 (dataField w)) ∧
  (∀ (x : BitVec 32) (s : State), ∃ r : BitVec 32, r = (x <<< 1) ^^^ x.sshiftRight 31 ∧
    (r.toNat : Int) = (if 0 ≤ x.toInt then 2 * x.toInt else -2 * x.toInt - 1) ∧
    exec (.zzenc32 x) s = .next { s with responses := s.responses ++ [⟨.ok, 0, BitVec.ofNat 64 r.toNat⟩] }) ∧
  ∀ (x : BitVec 64) (s : State), ∃ r : BitVec 64, r = (x <<< 1) ^^^ x.sshiftRight 63 ∧
    (r.toNat : Int) = (if 0 ≤ x.toInt then 2 * x.toInt else -2 * x.toInt - 1) ∧
    exec (.zzenc64 x) s = .next { s with responses := s.responses ++ [⟨.ok, 0, r⟩] }

/-- R75, R76: ZZDEC32 and ZZDEC64, by the formula of R72 and in the closed form of R77 (b); `result[63:32] = 0` for the
32-bit form (R41). -/
def Obligations.ZigzagDecodeResult : Prop :=
  Selects 0x22 (fun w => .zzdec32 (data32Field w)) ∧ Selects 0x23 (fun w => .zzdec64 (dataField w)) ∧
  (∀ (u : BitVec 32) (s : State), ∃ r : BitVec 32, r = (u >>> 1) ^^^ -(u &&& 1) ∧
    r.toInt = (if u.toNat % 2 = 0 then (u.toNat / 2 : Int) else -((u.toNat + 1) / 2 : Int)) ∧
    exec (.zzdec32 u) s = .next { s with responses := s.responses ++ [⟨.ok, 0, BitVec.ofNat 64 r.toNat⟩] }) ∧
  ∀ (u : BitVec 64) (s : State), ∃ r : BitVec 64, r = (u >>> 1) ^^^ -(u &&& 1) ∧
    r.toInt = (if u.toNat % 2 = 0 then (u.toNat / 2 : Int) else -((u.toNat + 1) / 2 : Int)) ∧
    exec (.zzdec64 u) s = .next { s with responses := s.responses ++ [⟨.ok, 0, r⟩] }

/-- R77 (c): zigzag decode and encode are inverse to each other on 32 and on 64 bits. -/
def Obligations.ZigzagIsBijection : Prop :=
  (∀ v : BitVec 32, zigzagDec (zigzagEnc v) = v ∧ zigzagEnc (zigzagDec v) = v) ∧
  ∀ v : BitVec 64, zigzagDec (zigzagEnc v) = v ∧ zigzagEnc (zigzagDec v) = v

/-- R77 (d): a smaller magnitude has a smaller zigzag code. -/
def Obligations.ZigzagKeepsMagnitudeOrder : Prop :=
  (∀ v v' : BitVec 32, v.toInt.natAbs < v'.toInt.natAbs → (zigzagEnc v).toNat < (zigzagEnc v').toNat) ∧
  ∀ v v' : BitVec 64, v.toInt.natAbs < v'.toInt.natAbs → (zigzagEnc v).toNat < (zigzagEnc v').toNat

/-- R78: the response of a ZZ command depends on the command alone, it reads and writes no state, calls no port and cannot
fail; and the signed varint commands use the same functions (R46). -/
def Obligations.ZigzagCommandsAreStateless : Prop :=
  (∀ i, unitOf i = .zz → ∃ r, ∀ s, exec i s = .next { s with responses := s.responses ++ [⟨.ok, 0, r⟩] }) ∧
  (∀ x s, exec (.wrsv32 x) s = exec (.wruv32 (zigzagEnc x)) s) ∧
  (∀ x s, exec (.wrsv64 x) s = exec (.wruv64 (zigzagEnc x)) s) ∧
  (∀ s t k r, exec .rduv32 s = .next t → Answered s t ⟨.ok, k, r⟩ →
    exec .rdsv32 s = .next { t with
      responses := s.responses ++ [⟨.ok, k, (zigzagDec (r.setWidth 32)).setWidth 64⟩] }) ∧
  ∀ s t k r, exec .rduv64 s = .next t → Answered s t ⟨.ok, k, r⟩ →
    exec .rdsv64 s = .next { t with responses := s.responses ++ [⟨.ok, k, zigzagDec r⟩] }

/-! ## Varint encode (44_varint_encode.md) -/

/-- R83, R84 (with R28, R79 to R82): WRUV32 and WRUV64 hand the varint of their operand to the sink. (That a refused byte
is not in the sink is the model's choice, log 16.) -/
def Obligations.VarintEncodeUnsignedResult : Prop :=
  Selects 0x30 (fun w => .wruv32 (data32Field w)) ∧ Selects 0x31 (fun w => .wruv64 (dataField w)) ∧
  (∀ u : BitVec 32, ∃ bs, IsVarint u.toNat bs ∧ bs.length ≤ 5 ∧ ∀ s, EncodesTo (.wruv32 u) bs s) ∧
  ∀ u : BitVec 64, ∃ bs, IsVarint u.toNat bs ∧ bs.length ≤ 10 ∧ ∀ s, EncodesTo (.wruv64 u) bs s

/-- R85, R86: WRSV32 and WRSV64 hand over the varint of the zigzag code of their operand. (That a refused byte is not in
the sink is the model's choice, log 16.) -/
def Obligations.VarintEncodeSignedResult : Prop :=
  Selects 0x32 (fun w => .wrsv32 (data32Field w)) ∧ Selects 0x33 (fun w => .wrsv64 (dataField w)) ∧
  (∀ x : BitVec 32, ∃ bs, IsVarint (if 0 ≤ x.toInt then 2 * x.toInt else -2 * x.toInt - 1).toNat bs ∧
    bs.length ≤ 5 ∧ ∀ s, EncodesTo (.wrsv32 x) bs s) ∧
  ∀ x : BitVec 64, ∃ bs, IsVarint (if 0 ≤ x.toInt then 2 * x.toInt else -2 * x.toInt - 1).toNat bs ∧
    bs.length ≤ 10 ∧ ∀ s, EncodesTo (.wrsv64 x) bs s

/-- R80: the size law of the encoder, `MAXB`, the one-byte range and the last byte of a longest encoding. -/
def Obligations.VarintSizeLaw : Prop :=
  maxB 32 = 5 ∧ maxB 64 = 10 ∧
  (∀ u : BitVec 32, IsVarintLength u.toNat (uvarintBytes u).length ∧ (uvarintBytes u).length ≤ 5 ∧
    (u.toNat < 128 → (uvarintBytes u).length = 1) ∧
    ∀ b, (uvarintBytes u)[4]? = some b → b.toNat = u.toNat / 2 ^ 28 ∧ b.toNat ≤ 0x0F) ∧
  ∀ u : BitVec 64, IsVarintLength u.toNat (uvarintBytes u).length ∧ (uvarintBytes u).length ≤ 10 ∧
    (u.toNat < 128 → (uvarintBytes u).length = 1) ∧
    ∀ b, (uvarintBytes u)[9]? = some b → b = 0x01

/-! ## Varint decode (45_varint_decode.md) -/

/-- R89, R90 (with R88, R94): RDUV32 and RDUV64 on a terminated varint of at most `MAXB(W)` bytes, minimal or not. -/
def Obligations.VarintDecodeUnsignedResult : Prop :=
  Selects 0x40 (fun _ => .rduv32) ∧ Selects 0x41 (fun _ => .rduv64) ∧
  ∀ s bs, Terminated bs → SourceGives s.source bs →
    (bs.length ≤ 5 → DecodeEnds .rduv32 s bs.length bs.length
      ⟨.ok, BitVec.ofNat 8 bs.length, BitVec.ofNat 64 (payloadSum bs % 2 ^ 32)⟩) ∧
    (bs.length ≤ 10 → DecodeEnds .rduv64 s bs.length bs.length
      ⟨.ok, BitVec.ofNat 8 bs.length, BitVec.ofNat 64 (payloadSum bs % 2 ^ 64)⟩)

/-- R91, R92: RDSV32 and RDSV64, the same and then zigzag decode. -/
def Obligations.VarintDecodeSignedResult : Prop :=
  Selects 0x42 (fun _ => .rdsv32) ∧ Selects 0x43 (fun _ => .rdsv64) ∧
  ∀ s bs, Terminated bs → SourceGives s.source bs →
    (bs.length ≤ 5 → DecodeEnds .rdsv32 s bs.length bs.length
      ⟨.ok, BitVec.ofNat 8 bs.length, (zigzagDec (BitVec.ofNat 32 (payloadSum bs))).setWidth 64⟩) ∧
    (bs.length ≤ 10 → DecodeEnds .rdsv64 s bs.length bs.length
      ⟨.ok, BitVec.ofNat 8 bs.length, zigzagDec (BitVec.ofNat 64 (payloadSum bs))⟩)

/-- R101: the stream ends before a terminal byte, at any call number 1 to `MAXB(W) + 1`. -/
def Obligations.TruncatedVarintFails : Prop :=
  ∀ i w s bs, vdWidth i = some w → Flagged bs → bs.length ≤ maxB w → SourceGives s.source bs →
    srcAnswerAt s.source bs.length = some .endOfStream →
    DecodeEnds i s (bs.length + 1) bs.length ⟨.error .unexpectedEof, 0, 0⟩

/-- R103: `MAXB(W) + 1` bytes consumed of which the first `MAXB(W)` are flagged, whatever the last one holds; and no
terminated varint of at most `MAXB(W)` bytes is malformed, whatever its payload. -/
def Obligations.OverlongVarintFails : Prop :=
  maxB 32 + 1 = 6 ∧ maxB 64 + 1 = 11 ∧
  ∀ i w s, vdWidth i = some w →
    (∀ bs b, Flagged bs → bs.length = maxB w → SourceGives s.source (bs ++ [b]) →
      DecodeEnds i s (maxB w + 1) (maxB w + 1) ⟨.error .malformedVarint, 0, 0⟩) ∧
    ∀ bs, Terminated bs → bs.length ≤ maxB w → SourceGives s.source bs →
      ∃ t k r, exec i s = .next t ∧ Answered s t ⟨.ok, k, r⟩

/-- R99: a port call that fails ends its varint command with Io, at the first failure and with no second attempt; and no
command of the other units ever answers Io. VE: whichever byte of the operand's varint is refused, the bytes before it are
in the sink. (That the failing call itself takes no byte from the source and leaves none in the sink is the model's
choice, log 16.) -/
def Obligations.PortFailureIsIo : Prop :=
  (∀ i w s bs, vdWidth i = some w → Flagged bs → bs.length ≤ maxB w → SourceGives s.source bs →
    srcAnswerAt s.source bs.length = some .fail →
    DecodeEnds i s (bs.length + 1) bs.length ⟨.error .io, 0, 0⟩) ∧
  (∀ i u s bs m, veNumber i = some u → IsVarint u bs → m < bs.length → SinkAccepts s.sink m →
    sinkAnswerAt s.sink m = some .fail →
    exec i s = .next { s with
      sink := sinkAfter s.sink (m + 1) (bs.take m)
      responses := s.responses ++ [⟨.error .io, 0, 0⟩] }) ∧
  ∀ i s t c r, exec i s = .next t → Answered s t ⟨.error .io, c, r⟩ → unitOf i = .ve ∨ unitOf i = .vd

/-- R119, U6: a port call that is never answered stalls its command for ever: no response, no next state. VE: at whichever
byte of the operand's varint it is (that the stall is a named fault is the model's choice, log 8). -/
def Obligations.UnansweredPortStalls : Prop :=
  (∀ i w s bs, vdWidth i = some w → Flagged bs → bs.length ≤ maxB w → SourceGives s.source bs →
    srcAnswerAt s.source bs.length = none → exec i s = .fault .sourceNeverAnswers) ∧
  ∀ i u s bs m, veNumber i = some u → IsVarint u bs → m < bs.length → SinkAccepts s.sink m →
    sinkAnswerAt s.sink m = none → exec i s = .fault .sinkNeverAnswers

/-- R95 (a): the bytes an encoder handed to an accepting sink, presented to the source, make the decoder of the same type
return the operand, with `count` the encoder's `count`; 32-bit results are zero-extended (R41). -/
def Obligations.VarintRoundTrip : Prop :=
  ∀ (i d : Instr) (operand : Data),
    ((∃ u : BitVec 32, i = .wruv32 u ∧ d = .rduv32 ∧ operand = u.setWidth 64) ∨
     (∃ u : BitVec 64, i = .wruv64 u ∧ d = .rduv64 ∧ operand = u) ∨
     (∃ x : BitVec 32, i = .wrsv32 x ∧ d = .rdsv32 ∧ operand = x.setWidth 64) ∨
     (∃ x : BitVec 64, i = .wrsv64 x ∧ d = .rdsv64 ∧ operand = x)) →
    ∀ s t, SinkAccepts s.sink 10 → exec i s = .next t →
      ∃ bs count, t.sink.accepted = s.sink.accepted ++ bs ∧ Answered s t ⟨.ok, count, 0⟩ ∧
        ∀ s', SourceGives s'.source bs →
          ∃ t', exec d s' = .next t' ∧ Answered s' t' ⟨.ok, count, operand⟩ ∧
            t'.source.taken = s'.source.taken + bs.length
end

