-- ==== Sys2Proof/Laws/Memory.lean ====
section
/-! SUPPORT. What the storage operations do: reading after writing, the canonical form, bits, and fields. -/

namespace Sys2Proof.Machine

/-! ### Bytes -/

@[simp] theorem Memory.read_nil (a : Nat) : Memory.read [] a = none := rfl

/-- A read after a write gives the written byte at its address and the old one elsewhere. -/
@[simp] theorem Memory.read_write (m : Memory) (a b : Nat) (v : Byte) :
    (m.write a v).read b = if a = b then some v else m.read b := by
  induction m with
  | nil => simp [Memory.write, Memory.read]
  | cons c m ih =>
    obtain ⟨k, x⟩ := c
    simp only [Memory.write]
    split
    · simp [Memory.read]
    · split
      · subst_vars
        simp only [Memory.read]
        split <;> rfl
      · simp only [Memory.read, ih]
        split
        · split
          · omega
          · rfl
        · rfl

/-- The addresses listed after a write. -/
theorem Memory.mem_write {m : Memory} {a : Nat} {v : Byte} {c : Host.Cell} (h : c ∈ m.write a v) :
    c = (a, v) ∨ c ∈ m := by
  induction m with
  | nil => simpa [Memory.write] using h
  | cons d m ih =>
    obtain ⟨k, x⟩ := d
    simp only [Memory.write] at h
    split at h
    · simpa using h
    · split at h
      · simp only [List.mem_cons] at h ⊢
        tauto
      · simp only [List.mem_cons] at h ⊢
        rcases h with h | h
        · exact .inr (.inl h)
        · rcases ih h with h | h <;> tauto

theorem Memory.wf_nil : Memory.wf [] := List.Pairwise.nil

/-- A write keeps the canonical form. -/
theorem Memory.wf_write {m : Memory} (h : m.wf) (a : Nat) (v : Byte) : (m.write a v).wf := by
  induction m with
  | nil => simp [Memory.write, Memory.wf]
  | cons d m ih =>
    obtain ⟨k, x⟩ := d
    rw [Memory.wf, List.pairwise_cons] at h
    obtain ⟨hk, hm⟩ := h
    simp only [Memory.write]
    split
    · rename_i hlt
      rw [Memory.wf, List.pairwise_cons, List.pairwise_cons]
      refine ⟨fun c hc => ?_, hk, hm⟩
      rcases List.mem_cons.1 hc with rfl | hc
      · exact hlt
      · exact Nat.lt_trans hlt (hk c hc)
    · split
      · subst_vars
        rw [Memory.wf, List.pairwise_cons]
        exact ⟨hk, hm⟩
      · rw [Memory.wf, List.pairwise_cons]
        refine ⟨fun c hc => ?_, ih hm⟩
        rcases Memory.mem_write hc with rfl | hc
        · show k < a
          omega
        · exact hk c hc

/-! ### Bits -/

theorem bitLoc_eq (p : Nat) : bitLoc p = (p / 8, (1 : Byte) <<< (p % 8)) := by
  have h : p &&& 7 = p % 8 := Nat.and_two_pow_sub_one_eq_mod p 3
  simp [bitLoc, Nat.shiftRight_eq_div_pow, h]

/-- The mask of a bit offset selects exactly that bit. -/
theorem getLsbD_one_shiftLeft (i j : Nat) (hi : i < 8) : ((1 : Byte) <<< i).getLsbD j = decide (j = i) := by
  rw [BitVec.getLsbD_shiftLeft]
  by_cases h : j = i
  · subst h; simp [hi]
  · by_cases h' : j < i
    · simp [h, h']
    · have : j - i ≠ 0 := by omega
      simp [h, BitVec.getLsbD_one, this]

/-- Reading a bit through `BitLoc` is taking that bit of its byte. -/
theorem bitRead_eq (byteAt : Nat → Byte) (p : Nat) : bitRead byteAt p = arrayBit byteAt p := by
  have h8 : p % 8 < 8 := Nat.mod_lt _ (by decide)
  simp only [bitRead, bitLoc_eq, arrayBit]
  generalize byteAt (p / 8) = b
  by_cases hb : b.getLsbD (p % 8) = true
  · rw [hb, bne_iff_ne]
    intro h0
    have h1 : (b &&& (1 : Byte) <<< (p % 8)).getLsbD (p % 8) = false := by rw [h0]; exact BitVec.getLsbD_zero
    rw [BitVec.getLsbD_and, getLsbD_one_shiftLeft _ _ h8, hb] at h1
    simp at h1
  · rw [Bool.not_eq_true] at hb
    rw [hb, bne_eq_false_iff_eq]
    apply BitVec.eq_of_getLsbD_eq
    intro i hi
    rw [BitVec.getLsbD_and, getLsbD_one_shiftLeft _ _ h8]
    by_cases h : i = p % 8
    · subst h; rw [hb]; exact BitVec.getLsbD_zero.symm
    · rw [decide_eq_false h, Bool.and_false]; exact BitVec.getLsbD_zero.symm

/-- The byte `bitWrite` stores. -/
theorem bitWrite_read (m : Memory) (p a : Nat) (b : Bool) :
    (bitWrite m p b).read a =
      if p / 8 = a then some ((((m.read (p / 8)).getD 0) &&& ~~~((1 : Byte) <<< (p % 8))) |||
        (if b then (1 : Byte) <<< (p % 8) else 0)) else m.read a := by
  simp [bitWrite, bitLoc_eq]

/-- A bit of the byte `bitWrite` stores. -/
theorem setBit_getLsbD (x : Byte) (i j : Nat) (hi : i < 8) (hj : j < 8) (b : Bool) :
    ((x &&& ~~~((1 : Byte) <<< i)) ||| (if b then (1 : Byte) <<< i else 0)).getLsbD j =
      if j = i then b else x.getLsbD j := by
  have hb : (if b then (1 : Byte) <<< i else 0).getLsbD j = (b && decide (j = i)) := by
    cases b
    · exact BitVec.getLsbD_zero
    · rw [if_pos rfl, getLsbD_one_shiftLeft _ _ hi, Bool.true_and]
  rw [BitVec.getLsbD_or, BitVec.getLsbD_and, BitVec.getLsbD_not, getLsbD_one_shiftLeft _ _ hi, hb]
  by_cases h : j = i <;> simp [h, hj]

theorem Memory.bitAt_eq_some {m : Memory} {p : Nat} {b : Bool} :
    m.bitAt p = some b ↔ ∃ x, m.read (p / 8) = some x ∧ x.getLsbD (p % 8) = b := by
  simp [Memory.bitAt, Option.map_eq_some_iff]

/-- The bits of a byte after `bitWrite`: the written one, and every specified other one as before. -/
theorem bitWrite_bitAt_self (m : Memory) (p : Nat) (b : Bool) : (bitWrite m p b).bitAt p = some b := by
  have h8 : p % 8 < 8 := Nat.mod_lt _ (by decide)
  rw [Memory.bitAt, bitWrite_read, if_pos rfl, Option.map_some, setBit_getLsbD _ _ _ h8 h8]
  simp

theorem bitWrite_bitAt_of_ne (m : Memory) {p q : Nat} (h : q ≠ p) (b : Bool) :
    (bitWrite m p b).bitAt q =
      if p / 8 = q / 8 then some (((m.read (p / 8)).getD 0).getLsbD (q % 8)) else m.bitAt q := by
  have hp : p % 8 < 8 := Nat.mod_lt _ (by decide)
  have hq : q % 8 < 8 := Nat.mod_lt _ (by decide)
  rw [Memory.bitAt, bitWrite_read]
  by_cases hb : p / 8 = q / 8
  · have hne : q % 8 ≠ p % 8 := by omega
    rw [if_pos hb, if_pos hb, Option.map_some, setBit_getLsbD _ _ _ hp hq, if_neg hne]
  · rw [if_neg hb, if_neg hb, Memory.bitAt]

theorem bitWrite_bitAt_keep (m : Memory) {p q : Nat} (h : q ≠ p) (b c : Bool) (hc : m.bitAt q = some c) :
    (bitWrite m p b).bitAt q = some c := by
  rw [bitWrite_bitAt_of_ne m h]
  split
  · rename_i hb
    obtain ⟨x, hx, hx'⟩ := Memory.bitAt_eq_some.1 hc
    rw [hb, hx]; simpa using hx'
  · exact hc

theorem bitWrite_wf {m : Memory} (h : m.wf) (p : Nat) (b : Bool) : (bitWrite m p b).wf := Memory.wf_write h _ _

/-! ### Fields -/

theorem fieldInsert_wf {w : Nat} {m : Memory} (h : m.wf) (c : Nat) (v : BitVec w) (n : Nat) :
    (fieldInsert m c v n).wf := by
  induction n with
  | zero => exact h
  | succ n ih => exact bitWrite_wf ih _ _

/-- The bits of a field after its insertion. -/
theorem fieldInsert_bitAt {w : Nat} (m : Memory) (c : Nat) (v : BitVec w) (n j : Nat) (hj : j < n) :
    (fieldInsert m c v n).bitAt (c + j) = some (v.getLsbD j) := by
  induction n with
  | zero => omega
  | succ n ih =>
    by_cases h : j = n
    · subst h; exact bitWrite_bitAt_self _ _ _
    · exact bitWrite_bitAt_keep _ (by omega) _ _ (ih (by omega))

/-- A specified bit outside the field keeps its value. -/
theorem fieldInsert_bitAt_keep {w : Nat} (m : Memory) (c : Nat) (v : BitVec w) (n p : Nat) (b : Bool)
    (hp : p < c ∨ c + n ≤ p) (hb : m.bitAt p = some b) : (fieldInsert m c v n).bitAt p = some b := by
  induction n with
  | zero => exact hb
  | succ n ih => exact bitWrite_bitAt_keep _ (by omega) _ _ (ih (by omega))

/-- A byte that holds no bit of the field is not written. -/
theorem fieldInsert_read {w : Nat} (m : Memory) (c : Nat) (v : BitVec w) (n a : Nat)
    (ha : ∀ j < n, (c + j) / 8 ≠ a) : (fieldInsert m c v n).read a = m.read a := by
  induction n with
  | zero => rfl
  | succ n ih =>
    rw [fieldInsert, bitWrite_read, if_neg (ha n (by omega))]
    exact ih fun j hj => ha j (by omega)

/-- The listed bytes after an insertion. -/
theorem fieldInsert_isSome {w : Nat} (m : Memory) (c : Nat) (v : BitVec w) (n a : Nat) :
    ((fieldInsert m c v n).read a).isSome = true ↔ (m.read a).isSome = true ∨ ∃ j < n, (c + j) / 8 = a := by
  induction n with
  | zero => simp [fieldInsert]
  | succ n ih =>
    rw [fieldInsert, bitWrite_read]
    split
    · rename_i h
      simp only [Option.isSome_some, true_iff]
      exact .inr ⟨n, by omega, h⟩
    · rename_i h
      rw [ih]
      constructor
      · rintro (h' | ⟨j, hj, h'⟩)
        · exact .inl h'
        · exact .inr ⟨j, by omega, h'⟩
      · rintro (h' | ⟨j, hj, h'⟩)
        · exact .inl h'
        · refine .inr ⟨j, ?_, h'⟩
          rcases Nat.lt_succ_iff_lt_or_eq.1 hj with h'' | rfl
          · exact h''
          · exact absurd h' h

/-- A bit that reads 1 after an insertion was set by it or read 1 before. -/
theorem fieldInsert_bitAt_true {w : Nat} (m : Memory) (c : Nat) (v : BitVec w) (n p : Nat)
    (h : (fieldInsert m c v n).bitAt p = some true) (hp : p < c ∨ c + n ≤ p) : m.bitAt p = some true := by
  induction n with
  | zero => exact h
  | succ n ih =>
    have hne : p ≠ c + n := by omega
    rw [fieldInsert, bitWrite_bitAt_of_ne _ hne] at h
    split at h
    · rename_i hb
      refine ih ?_ (by omega)
      cases hr : (fieldInsert m c v n).read ((c + n) / 8) with
      | none => simp [hr] at h
      | some x => exact Memory.bitAt_eq_some.2 ⟨x, by rw [← hb]; exact hr, by simpa [hr] using h⟩
    · exact ih h (by omega)

/-- An extracted field is below `2^n`. -/
theorem fieldExtract_lt (byteAt : Nat → Byte) (c n : Nat) : fieldExtract byteAt c n < 2 ^ n := by
  induction n with
  | zero => simp [fieldExtract]
  | succ n ih =>
    have hb : (bitRead byteAt (c + n)).toNat ≤ 1 := Bool.toNat_le _
    rw [fieldExtract, Nat.pow_succ]
    nlinarith [Nat.one_le_two_pow (n := n)]

/-- The bits of an extracted field are the bits of the storage, lowest position first. -/
theorem fieldExtract_testBit (byteAt : Nat → Byte) (c n j : Nat) :
    (fieldExtract byteAt c n).testBit j = (decide (j < n) && arrayBit byteAt (c + j)) := by
  induction n with
  | zero => simp [fieldExtract]
  | succ n ih =>
    rw [fieldExtract, Nat.add_comm, Nat.mul_comm, bitRead_eq]
    rcases Nat.lt_trichotomy j n with h | rfl | h
    · rw [Nat.testBit_two_pow_mul_add _ (fieldExtract_lt byteAt c n), if_pos h, ih]
      simp [h, Nat.lt_succ_of_lt h]
    · rw [Nat.testBit_two_pow_mul_add _ (fieldExtract_lt byteAt c j), if_neg (by omega)]
      cases arrayBit byteAt (c + j) <;> simp
    · rw [Nat.testBit_two_pow_mul_add _ (fieldExtract_lt byteAt c n), if_neg (by omega)]
      have h1 : ¬ j < n + 1 := by omega
      obtain ⟨k, hk⟩ : ∃ k, j - n = k + 1 := ⟨j - n - 1, by omega⟩
      rw [hk, Nat.testBit_succ]
      cases arrayBit byteAt (c + n) <;> simp [h1]

/-- Extraction looks only at the bits of the field. -/
theorem fieldExtract_congr {f g : Nat → Byte} {c n : Nat}
    (h : ∀ j < n, arrayBit f (c + j) = arrayBit g (c + j)) : fieldExtract f c n = fieldExtract g c n := by
  induction n with
  | zero => rfl
  | succ n ih =>
    rw [fieldExtract, fieldExtract, ih fun j hj => h j (by omega), bitRead_eq, bitRead_eq, h n (by omega)]

end Sys2Proof.Machine
end

