-- ==== Sys2Proof/Laws/Ports.lean ====
section
/-! SUPPORT. What the port calls and the two varint loops do: one lemma per procedure, in terms of what the port will
answer. -/

namespace Sys2Proof.Machine

/-! ### Calls -/

theorem srcGet_eq (p : SrcPort) :
    srcGet p = (srcAnswerAt p 0).map fun a => (a, srcAfter p 1 a.consumed) := by
  obtain ⟨l, after, taken⟩ := p
  cases l <;> simp [srcGet, srcAnswerAt, srcAfter]

theorem sinkPut_eq (p : SinkPort) (b : Byte) :
    sinkPut p b = (sinkAnswerAt p 0).map fun a => (a, sinkAfter p 1 (a.accepts b)) := by
  obtain ⟨l, after, accepted⟩ := p
  cases l <;> simp [sinkPut, sinkAnswerAt, sinkAfter]

@[simp] theorem srcAnswerAt_srcAfter (p : SrcPort) (c t j : Nat) :
    srcAnswerAt (srcAfter p c t) j = srcAnswerAt p (c + j) := by
  simp [srcAnswerAt, srcAfter]

@[simp] theorem sinkAnswerAt_sinkAfter (p : SinkPort) (c : Nat) (bs : List Byte) (j : Nat) :
    sinkAnswerAt (sinkAfter p c bs) j = sinkAnswerAt p (c + j) := by
  simp [sinkAnswerAt, sinkAfter]

@[simp] theorem srcAfter_srcAfter (p : SrcPort) (a b c d : Nat) :
    srcAfter (srcAfter p a b) c d = srcAfter p (a + c) (b + d) := by
  simp [srcAfter, Nat.add_assoc]

@[simp] theorem sinkAfter_sinkAfter (p : SinkPort) (a c : Nat) (bs ds : List Byte) :
    sinkAfter (sinkAfter p a bs) c ds = sinkAfter p (a + c) (bs ++ ds) := by
  simp [sinkAfter, List.append_assoc]

@[simp] theorem srcAfter_zero (p : SrcPort) : srcAfter p 0 0 = p := by simp [srcAfter]

@[simp] theorem sinkAfter_zero (p : SinkPort) : sinkAfter p 0 [] = p := by simp [sinkAfter]

@[simp] theorem srcAfter_after (p : SrcPort) (c t : Nat) : (srcAfter p c t).after = p.after := rfl

@[simp] theorem sinkAfter_after (p : SinkPort) (c : Nat) (bs : List Byte) : (sinkAfter p c bs).after = p.after := rfl

/-- Where the standing answer exists, every call is answered. -/
theorem srcAnswerAt_ne_none {p : SrcPort} (h : p.after ≠ none) (j : Nat) : srcAnswerAt p j ≠ none := by
  simp only [srcAnswerAt]; split <;> simp [h]

theorem sinkAnswerAt_ne_none {p : SinkPort} (h : p.after ≠ none) (j : Nat) : sinkAnswerAt p j ≠ none := by
  simp only [sinkAnswerAt]; split <;> simp [h]

/-! ### The sink -/

/-- A sink that accepts every byte takes them all. -/
theorem putBytes_accepted {bs : List Byte} {p : SinkPort} (h : SinkAccepts p bs.length) :
    putBytes bs p = .accepted (sinkAfter p bs.length bs) := by
  induction bs generalizing p with
  | nil => simp [putBytes]
  | cons b bs ih =>
    have h0 : sinkAnswerAt p 0 = some .ok := h 0 (by simp)
    rw [putBytes, sinkPut_eq, h0, Option.map_some]
    show putBytes bs (sinkAfter p 1 [b]) = _
    rw [ih (p := sinkAfter p 1 [b]) fun j hj => ?_]
    · simp [Nat.add_comm]
    · rw [sinkAnswerAt_sinkAfter]
      exact h (1 + j) (by simp; omega)

/-- A sink that refuses byte number `m` has taken the ones before it, and no further call is made. -/
theorem putBytes_failed {bs : List Byte} {p : SinkPort} {m : Nat} (hm : m < bs.length) (h : SinkAccepts p m)
    (hf : sinkAnswerAt p m = some .fail) : putBytes bs p = .failed (sinkAfter p (m + 1) (bs.take m)) := by
  induction bs generalizing p m with
  | nil => simp at hm
  | cons b bs ih =>
    rw [putBytes, sinkPut_eq]
    cases m with
    | zero => rw [hf]; rfl
    | succ m =>
      rw [h 0 (by omega), Option.map_some]
      show putBytes bs (sinkAfter p 1 [b]) = _
      have h' : SinkAccepts (sinkAfter p 1 [b]) m := fun j hj => by
        rw [sinkAnswerAt_sinkAfter]; exact h (1 + j) (by omega)
      have hf' : sinkAnswerAt (sinkAfter p 1 [b]) m = some .fail := by
        rw [sinkAnswerAt_sinkAfter, Nat.add_comm]; exact hf
      rw [ih (by simpa using hm) h' hf']
      simp [Nat.add_comm]

/-- A call that is never answered is where the run ends. -/
theorem putBytes_neverAnswered {bs : List Byte} {p : SinkPort} {m : Nat} (hm : m < bs.length) (h : SinkAccepts p m)
    (hn : sinkAnswerAt p m = none) : putBytes bs p = .neverAnswered := by
  induction bs generalizing p m with
  | nil => simp at hm
  | cons b bs ih =>
    rw [putBytes, sinkPut_eq]
    cases m with
    | zero => rw [hn]; rfl
    | succ m =>
      rw [h 0 (by omega), Option.map_some]
      show putBytes bs (sinkAfter p 1 [b]) = _
      refine ih (m := m) (by simpa using hm) (fun j hj => ?_) ?_
      · rw [sinkAnswerAt_sinkAfter]; exact h (1 + j) (by omega)
      · rw [sinkAnswerAt_sinkAfter, Nat.add_comm]; exact hn

/-- Where the standing answer exists, a run of `SinkPut` calls ends with an answer. -/
theorem putBytes_answered {bs : List Byte} {p : SinkPort} (h : p.after ≠ none) : putBytes bs p ≠ .neverAnswered := by
  induction bs generalizing p with
  | nil => simp [putBytes]
  | cons b bs ih =>
    rw [putBytes, sinkPut_eq]
    cases ha : sinkAnswerAt p 0 with
    | none => exact absurd ha (sinkAnswerAt_ne_none h 0)
    | some a => cases a <;> simp [ih (p := sinkAfter p 1 _) h]

/-! ### The encoder's bytes -/

theorem continued_toNat (x : Byte) : ((x &&& 0x7F) ||| 0x80).toNat = x.toNat % 128 + 128 := by
  revert x; decide

theorem payload_toNat (x : Byte) : (x &&& 0x7F).toNat = x.toNat % 128 := by
  revert x; decide

theorem msb_iff (x : Byte) : x.msb = decide (128 ≤ x.toNat) := by
  revert x; decide

theorem uvarintBytesFrom_ne_nil {w : Nat} (turns : Nat) (v : BitVec w) : uvarintBytesFrom turns v ≠ [] := by
  cases turns
  · simp [uvarintBytesFrom]
  · rw [uvarintBytesFrom]; split <;> simp

/-- A value below 128 is its own one-byte varint (R79). -/
theorem isVarint_single {w : Nat} (v : BitVec w) (hv : v.toNat < 128) : IsVarint v.toNat [v.setWidth 8] := by
  refine ⟨⟨by simp, by simpa using hv, by simp⟩, ?_⟩
  intro j b hb
  cases j with
  | zero =>
    simp only [List.getElem?_cons_zero, Option.some.injEq] at hb
    subst hb
    simp only [BitVec.toNat_setWidth]
    simp; omega
  | succ j => simp at hb

/-- The loop of R82 emits the varint of the remaining value (R28, R79, R80). -/
theorem uvarintBytesFrom_isVarint {w : Nat} (turns : Nat) (v : BitVec w) (h : v.toNat < 2 ^ (7 * (turns + 1))) :
    IsVarint v.toNat (uvarintBytesFrom turns v) ∧ (uvarintBytesFrom turns v).length ≤ turns + 1 := by
  induction turns generalizing v with
  | zero => exact ⟨isVarint_single v (by simpa using h), by simp [uvarintBytesFrom]⟩
  | succ turns ih =>
    rw [uvarintBytesFrom]
    split
    · rename_i hv
      exact ⟨isVarint_single v hv, by simp⟩
    · rename_i hv
      have hdiv : (v >>> 7).toNat = v.toNat / 128 := by
        rw [BitVec.toNat_ushiftRight, Nat.shiftRight_eq_div_pow]
      have hlt : (v >>> 7).toNat < 2 ^ (7 * (turns + 1)) := by
        rw [hdiv]
        apply Nat.div_lt_of_lt_mul
        calc v.toNat < 2 ^ (7 * (turns + 1 + 1)) := h
          _ = 128 * 2 ^ (7 * (turns + 1)) := by rw [show 7 * (turns + 1 + 1) = 7 + 7 * (turns + 1) by ring, pow_add]; rfl
      obtain ⟨⟨⟨hl1, hl2, hl3⟩, hb⟩, hlen⟩ := ih (v >>> 7) hlt
      rw [hdiv] at hl2 hl3 hb
      set bs := uvarintBytesFrom turns (v >>> 7) with hbs
      refine ⟨⟨⟨by simp, ?_, ?_⟩, ?_⟩, by simpa using hlen⟩
      · rw [List.length_cons, show 7 * (bs.length + 1) = 7 + 7 * bs.length by ring, pow_add]
        exact (Nat.div_lt_iff_lt_mul (by decide)).1 hl2 |>.trans_eq (Nat.mul_comm _ _)
      · intro _
        rw [List.length_cons, Nat.add_sub_cancel]
        obtain ⟨k, hk⟩ : ∃ k, bs.length = k + 1 := ⟨bs.length - 1, by omega⟩
        rw [hk] at hl3 ⊢
        rcases Nat.eq_zero_or_pos k with rfl | hk0
        · simpa using hv
        · have := hl3 (by omega)
          rw [Nat.add_sub_cancel] at this
          rw [show 7 * (k + 1) = 7 * k + 7 by ring, pow_add]
          exact (Nat.le_div_iff_mul_le (by decide)).1 this
      · intro j b hj
        cases j with
        | zero =>
          simp only [List.getElem?_cons_zero, Option.some.injEq] at hj
          subst hj
          rw [continued_toNat, BitVec.toNat_setWidth, if_pos (by simp; omega)]
          simp
        | succ j =>
          rw [List.getElem?_cons_succ] at hj
          rw [hb j b hj, Nat.div_div_eq_div_mul, List.length_cons,
            show 7 * (j + 1) = 7 + 7 * j by ring, pow_add]
          congr 1
          by_cases hjl : j + 1 < bs.length
          · rw [if_pos hjl, if_pos (by omega)]
          · rw [if_neg hjl, if_neg (by omega)]

/-- A number has one length of its varint (R80). -/
theorem isVarintLength_unique {u k l : Nat} (hk : IsVarintLength u k) (hl : IsVarintLength u l) : k = l := by
  have le : ∀ {k l}, IsVarintLength u k → IsVarintLength u l → k ≤ l := fun {k l} hk hl => by
    by_contra h
    have h1 := hk.2.2 (by have := hl.1; omega)
    exact absurd (h1.trans_lt hl.2.1) (Nat.not_lt.2 (Nat.pow_le_pow_right (by decide) (by omega)))
  exact Nat.le_antisymm (le hk hl) (le hl hk)

/-- A number has one varint (R28, R79, R80). -/
theorem isVarint_unique {u : Nat} {bs cs : List Byte} (hb : IsVarint u bs) (hc : IsVarint u cs) : bs = cs := by
  have hl := isVarintLength_unique hb.1 hc.1
  refine List.ext_getElem hl fun j h1 h2 => BitVec.eq_of_toNat_eq ?_
  rw [hb.2 j _ (List.getElem?_eq_getElem h1), hc.2 j _ (List.getElem?_eq_getElem h2), hl]

/-- What the encoder hands to the sink is the varint of its operand, of at most `MAXB(W)` bytes (R79, R80). -/
theorem uvarintBytes_isVarint {w : Nat} (hw : 0 < w) (u : BitVec w) :
    IsVarint u.toNat (uvarintBytes u) ∧ (uvarintBytes u).length ≤ maxB w := by
  have h1 : maxB w - 1 + 1 = maxB w := by simp [maxB]; omega
  have hle : w ≤ 7 * (maxB w - 1 + 1) := by rw [h1]; simp [maxB]; omega
  have := uvarintBytesFrom_isVarint (maxB w - 1) u (u.isLt.trans_le (Nat.pow_le_pow_right (by decide) hle))
  rw [h1] at this
  exact this

/-! ### The decoder's loop -/

/-- The accumulator after the payload bits of `bs`, the first of them at byte index `i`. -/
def accumulateAll {w : Nat} (acc : BitVec w) (i : Nat) : List Byte → BitVec w
  | [] => acc
  | b :: bs => accumulateAll (accumulate acc i b) (i + 1) bs

theorem accumulate_toNat {w : Nat} (acc : BitVec w) (i : Nat) (b : Byte) (h : acc.toNat < 2 ^ (7 * i)) :
    (accumulate acc i b).toNat = (acc.toNat + 2 ^ (7 * i) * (b.toNat % 128)) % 2 ^ w := by
  have hx : ((b &&& 0x7F).setWidth w).toNat = b.toNat % 128 % 2 ^ w := by
    rw [BitVec.toNat_setWidth, payload_toNat]
  rw [accumulate, BitVec.toNat_or, BitVec.toNat_shiftLeft, hx, Nat.shiftLeft_eq, Nat.mod_mul_mod]
  set x := b.toNat % 128
  rcases Nat.le_total w (7 * i) with hwi | hwi
  · have h0 : x * 2 ^ (7 * i) % 2 ^ w = 0 :=
      Nat.mod_eq_zero_of_dvd (Dvd.dvd.mul_left (Nat.pow_dvd_pow 2 hwi) x)
    rw [h0, Nat.or_zero, Nat.add_mod, Nat.mul_comm, h0, Nat.add_zero, Nat.mod_mod, Nat.mod_eq_of_lt acc.isLt]
  · obtain ⟨k, rfl⟩ := Nat.exists_eq_add_of_le hwi
    have h1 : x * 2 ^ (7 * i) % 2 ^ (7 * i + k) = 2 ^ (7 * i) * (x % 2 ^ k) := by
      rw [Nat.mul_comm, pow_add, Nat.mul_mod_mul_left]
    have h2 : acc.toNat + 2 ^ (7 * i) * (x % 2 ^ k) < 2 ^ (7 * i + k) := by
      have : x % 2 ^ k < 2 ^ k := Nat.mod_lt _ (by positivity)
      rw [pow_add]
      calc acc.toNat + 2 ^ (7 * i) * (x % 2 ^ k) < 2 ^ (7 * i) + 2 ^ (7 * i) * (x % 2 ^ k) := by omega
        _ = 2 ^ (7 * i) * (x % 2 ^ k + 1) := by ring
        _ ≤ 2 ^ (7 * i) * 2 ^ k := Nat.mul_le_mul_left _ this
    rw [h1, Nat.or_comm, ← Nat.two_pow_add_eq_or_of_lt h, Nat.add_comm, ← Nat.mod_eq_of_lt h2]
    conv_rhs => rw [← Nat.mod_add_mod, Nat.add_mod]
    rw [show 2 ^ (7 * i) * x % 2 ^ (7 * i + k) = 2 ^ (7 * i) * (x % 2 ^ k) by
      rw [pow_add, Nat.mul_mod_mul_left]]
    simp

theorem accumulate_lt {w : Nat} (acc : BitVec w) (i : Nat) (b : Byte) (h : acc.toNat < 2 ^ (7 * i)) :
    (accumulate acc i b).toNat < 2 ^ (7 * (i + 1)) := by
  rw [accumulate_toNat acc i b h]
  refine (Nat.mod_le _ _).trans_lt ?_
  have : b.toNat % 128 < 128 := Nat.mod_lt _ (by decide)
  rw [show 7 * (i + 1) = 7 * i + 7 by ring, pow_add]
  calc acc.toNat + 2 ^ (7 * i) * (b.toNat % 128) < 2 ^ (7 * i) + 2 ^ (7 * i) * (b.toNat % 128) := by omega
    _ = 2 ^ (7 * i) * (b.toNat % 128 + 1) := by ring
    _ ≤ 2 ^ (7 * i) * 2 ^ 7 := Nat.mul_le_mul_left _ (by omega)

/-- The accumulator holds the number the payload bits make, in `W` bits (R88). -/
theorem accumulateAll_toNat {w : Nat} (bs : List Byte) (acc : BitVec w) (i : Nat) (h : acc.toNat < 2 ^ (7 * i)) :
    (accumulateAll acc i bs).toNat = (acc.toNat + 2 ^ (7 * i) * payloadSum bs) % 2 ^ w := by
  induction bs generalizing acc i with
  | nil => simp [accumulateAll, payloadSum, Nat.mod_eq_of_lt acc.isLt]
  | cons b bs ih =>
    rw [accumulateAll, ih _ _ (accumulate_lt acc i b h), accumulate_toNat acc i b h, Nat.mod_add_mod]
    congr 1
    rw [payloadSum, show 7 * (i + 1) = 7 * i + 7 by ring, pow_add]
    ring

theorem accumulateAll_append {w : Nat} (bs cs : List Byte) (acc : BitVec w) (i : Nat) :
    accumulateAll acc i (bs ++ cs) = accumulateAll (accumulateAll acc i bs) (i + bs.length) cs := by
  induction bs generalizing acc i with
  | nil => rfl
  | cons b bs ih =>
    rw [List.cons_append, accumulateAll, accumulateAll, ih, List.length_cons]
    congr 1
    ring

/-- The loop runs through flagged bytes (R88). -/
theorem uvarintDecodeFrom_flagged {w : Nat} {bs : List Byte} (hf : Flagged bs) (left i : Nat) (acc : BitVec w)
    {p : SrcPort} (hg : SourceGives p bs) :
    uvarintDecodeFrom (left + bs.length) i acc p =
      uvarintDecodeFrom left (i + bs.length) (accumulateAll acc i bs) (srcAfter p bs.length bs.length) := by
  induction bs generalizing i acc p with
  | nil => simp [accumulateAll]
  | cons b bs ih =>
    have h0 : srcAnswerAt p 0 = some (.byte b) := hg 0 b rfl
    have hb : b.msb = true := hf b (by simp)
    rw [List.length_cons, ← Nat.add_assoc, uvarintDecodeFrom, srcGet_eq, h0, Option.map_some]
    simp only [SrcAnswer.consumed, hb, if_true]
    rw [ih (fun c hc => hf c (by simp [hc]))]
    · simp [accumulateAll, Nat.add_comm 1, Nat.add_assoc]
    · intro j c hc
      rw [srcAnswerAt_srcAfter, Nat.add_comm]
      exact hg (j + 1) c (by simpa using hc)

/-- A terminated varint of at most `MAXB(W)` bytes decodes to what its payload bits make (R88). -/
theorem uvarintDecodeFrom_terminated {w left : Nat} {bs : List Byte} (ht : Terminated bs) (hl : bs.length ≤ left)
    {p : SrcPort} (hg : SourceGives p bs) :
    uvarintDecodeFrom left 0 (0 : BitVec w) p =
      .value (accumulateAll 0 0 bs) bs.length (srcAfter p bs.length bs.length) := by
  obtain ⟨init, last, rfl, hf, hm⟩ := ht
  have hgi : SourceGives p init := fun j b hb => hg j b (by
    rw [List.getElem?_append_left (List.getElem?_eq_some_iff.1 hb).1]; exact hb)
  have hgl : srcAnswerAt p init.length = some (.byte last) := hg _ _ (by simp)
  obtain ⟨k, rfl⟩ : ∃ k, left = k + 1 + init.length := ⟨left - 1 - init.length, by simp at hl; omega⟩
  rw [uvarintDecodeFrom_flagged hf _ _ _ hgi, uvarintDecodeFrom, srcGet_eq]
  simp only [srcAnswerAt_srcAfter, Nat.add_zero, hgl, Option.map_some, SrcAnswer.consumed, hm, Bool.false_eq_true,
    if_false, srcAfter_srcAfter]
  simp [accumulateAll_append, accumulateAll]

/-- Flagged bytes and then the end of the stream, a failure, or no answer, at any call up to number `MAXB(W) + 1`
(R88, R93). -/
theorem uvarintDecodeFrom_cut {w left : Nat} {bs : List Byte} (hf : Flagged bs) (hl : bs.length ≤ left)
    {p : SrcPort} (hg : SourceGives p bs) (acc : BitVec w) (i : Nat) :
    (srcAnswerAt p bs.length = some .endOfStream →
      uvarintDecodeFrom left i acc p = .failed .unexpectedEof (srcAfter p (bs.length + 1) bs.length)) ∧
    (srcAnswerAt p bs.length = some .fail →
      uvarintDecodeFrom left i acc p = .failed .io (srcAfter p (bs.length + 1) bs.length)) ∧
    (srcAnswerAt p bs.length = none → uvarintDecodeFrom left i acc p = .neverAnswered) := by
  obtain ⟨k, rfl⟩ : ∃ k, left = k + bs.length := ⟨left - bs.length, by omega⟩
  rw [uvarintDecodeFrom_flagged hf _ _ _ hg]
  refine ⟨fun h => ?_, fun h => ?_, fun h => ?_⟩ <;>
    cases k <;> simp [uvarintDecodeFrom, srcGet_eq, h, SrcAnswer.consumed]

/-- `MAXB(W)` flagged bytes and then any byte (R88, R103). -/
theorem uvarintDecodeFrom_overlong {w : Nat} {bs : List Byte} (hf : Flagged bs) {b : Byte} {p : SrcPort}
    (hg : SourceGives p bs) (hb : srcAnswerAt p bs.length = some (.byte b)) (acc : BitVec w) (i : Nat) :
    uvarintDecodeFrom bs.length i acc p =
      .failed .malformedVarint (srcAfter p (bs.length + 1) (bs.length + 1)) := by
  have := uvarintDecodeFrom_flagged hf 0 i acc hg
  rw [Nat.zero_add] at this
  rw [this]
  simp [uvarintDecodeFrom, srcGet_eq, hb, SrcAnswer.consumed]

/-- Where the standing answer exists, the loop of R88 ends. -/
theorem uvarintDecodeFrom_answered {w : Nat} (left i : Nat) (acc : BitVec w) {p : SrcPort} (h : p.after ≠ none) :
    uvarintDecodeFrom left i acc p ≠ .neverAnswered := by
  induction left generalizing i acc p with
  | zero =>
    rw [uvarintDecodeFrom, srcGet_eq]
    cases ha : srcAnswerAt p 0 with
    | none => exact absurd ha (srcAnswerAt_ne_none h 0)
    | some a => cases a <;> simp
  | succ left ih =>
    rw [uvarintDecodeFrom, srcGet_eq]
    cases ha : srcAnswerAt p 0 with
    | none => exact absurd ha (srcAnswerAt_ne_none h 0)
    | some a =>
      cases a with
      | byte b =>
        simp only [Option.map_some]
        split
        · exact ih _ _ (p := srcAfter p 1 1) h
        · simp
      | endOfStream => simp
      | fail => simp

/-- The payload bits of the varint of a number make that number (R28). -/
theorem payloadSum_of_isVarint {u : Nat} {bs : List Byte} (h : IsVarint u bs) : payloadSum bs = u := by
  obtain ⟨⟨hl, hu, -⟩, hb⟩ := h
  have key : ∀ (bs : List Byte) (u : Nat), u < 2 ^ (7 * bs.length) →
      (∀ j b, bs[j]? = some b → b.toNat % 128 = u / 2 ^ (7 * j) % 128) → payloadSum bs = u := by
    intro bs
    induction bs with
    | nil => intro u hu _; simp at hu; simp [payloadSum, hu]
    | cons b bs ih =>
      intro u hu hb
      rw [payloadSum, hb 0 b rfl, ih (u / 128) ?_ ?_]
      · simp; omega
      · apply Nat.div_lt_of_lt_mul
        rw [List.length_cons, show 7 * (bs.length + 1) = 7 + 7 * bs.length by ring, pow_add] at hu
        exact hu
      · intro j c hc
        rw [hb (j + 1) c (by simpa using hc), Nat.div_div_eq_div_mul, show 7 * (j + 1) = 7 + 7 * j by ring, pow_add]
        rfl
  refine key bs u hu fun j b hj => ?_
  rw [hb j b hj]
  split <;> omega

/-- The varint of a number is terminated (R28). -/
theorem terminated_of_isVarint {u : Nat} {bs : List Byte} (h : IsVarint u bs) : Terminated bs := by
  obtain ⟨⟨hl, -, -⟩, hb⟩ := h
  obtain ⟨init, last, rfl⟩ : ∃ init last, bs = init ++ [last] :=
    ⟨bs.dropLast, bs.getLast (by rintro rfl; simp at hl), (List.dropLast_append_getLast _).symm⟩
  refine ⟨init, last, rfl, fun b hb' => ?_, ?_⟩
  · obtain ⟨j, hj, rfl⟩ := List.getElem_of_mem hb'
    have := hb j init[j] (by rw [List.getElem?_append_left hj]; simp [hj])
    rw [if_pos (by simp; omega)] at this
    rw [msb_iff, decide_eq_true_eq]; omega
  · have := hb init.length last (by simp)
    rw [if_neg (by simp)] at this
    rw [msb_iff, decide_eq_false_iff_not]; omega

end Sys2Proof.Machine
end

