-- ==== Sys2Proof/Laws/State.lean ====
section
/-! SUPPORT. One lemma per field of State per update of Machine/Ops.lean, each true by unfolding the update, so that no later
proof unfolds a record update. -/

namespace Sys2Proof.Machine

variable (s : State)

/-! ### bwSession -/

@[simp] theorem State.bwSession_storageBytes (c : Pos) : (s.bwSession c).storageBytes = s.storageBytes := rfl
@[simp] theorem State.bwSession_bwCapacityBits (c : Pos) : (s.bwSession c).bwCapacityBits = c := rfl
@[simp] theorem State.bwSession_bwCursorBits (c : Pos) : (s.bwSession c).bwCursorBits = 0 := rfl
@[simp] theorem State.bwSession_bwHighWaterBits (c : Pos) : (s.bwSession c).bwHighWaterBits = 0 := rfl
@[simp] theorem State.bwSession_bwMem (c : Pos) : (s.bwSession c).bwMem = [] := rfl
@[simp] theorem State.bwSession_brLengthBits (c : Pos) : (s.bwSession c).brLengthBits = s.brLengthBits := rfl
@[simp] theorem State.bwSession_brCursorBits (c : Pos) : (s.bwSession c).brCursorBits = s.brCursorBits := rfl
@[simp] theorem State.bwSession_brMem (c : Pos) : (s.bwSession c).brMem = s.brMem := rfl
@[simp] theorem State.bwSession_brImage (c : Pos) : (s.bwSession c).brImage = s.brImage := rfl
@[simp] theorem State.bwSession_draws (c : Pos) : (s.bwSession c).draws = s.draws := rfl
@[simp] theorem State.bwSession_source (c : Pos) : (s.bwSession c).source = s.source := rfl
@[simp] theorem State.bwSession_sink (c : Pos) : (s.bwSession c).sink = s.sink := rfl
@[simp] theorem State.bwSession_pending (c : Pos) : (s.bwSession c).pending = s.pending := rfl
@[simp] theorem State.bwSession_responses (c : Pos) : (s.bwSession c).responses = s.responses := rfl

/-! ### bwAdvance -/

@[simp] theorem State.bwAdvance_storageBytes {w : Nat} (n : Nat) (v : BitVec w) : (s.bwAdvance n v).storageBytes = s.storageBytes := rfl
@[simp] theorem State.bwAdvance_bwCapacityBits {w : Nat} (n : Nat) (v : BitVec w) : (s.bwAdvance n v).bwCapacityBits = s.bwCapacityBits := rfl
@[simp] theorem State.bwAdvance_bwCursorBits {w : Nat} (n : Nat) (v : BitVec w) : (s.bwAdvance n v).bwCursorBits = BitVec.ofNat 32 (s.bwCursorBits.toNat + n) := rfl
@[simp] theorem State.bwAdvance_bwHighWaterBits {w : Nat} (n : Nat) (v : BitVec w) : (s.bwAdvance n v).bwHighWaterBits = BitVec.ofNat 32 (max s.bwHighWaterBits.toNat (s.bwCursorBits.toNat + n)) := rfl
@[simp] theorem State.bwAdvance_bwMem {w : Nat} (n : Nat) (v : BitVec w) : (s.bwAdvance n v).bwMem = fieldInsert s.bwMem s.bwCursorBits.toNat v n := rfl
@[simp] theorem State.bwAdvance_brLengthBits {w : Nat} (n : Nat) (v : BitVec w) : (s.bwAdvance n v).brLengthBits = s.brLengthBits := rfl
@[simp] theorem State.bwAdvance_brCursorBits {w : Nat} (n : Nat) (v : BitVec w) : (s.bwAdvance n v).brCursorBits = s.brCursorBits := rfl
@[simp] theorem State.bwAdvance_brMem {w : Nat} (n : Nat) (v : BitVec w) : (s.bwAdvance n v).brMem = s.brMem := rfl
@[simp] theorem State.bwAdvance_brImage {w : Nat} (n : Nat) (v : BitVec w) : (s.bwAdvance n v).brImage = s.brImage := rfl
@[simp] theorem State.bwAdvance_draws {w : Nat} (n : Nat) (v : BitVec w) : (s.bwAdvance n v).draws = s.draws := rfl
@[simp] theorem State.bwAdvance_source {w : Nat} (n : Nat) (v : BitVec w) : (s.bwAdvance n v).source = s.source := rfl
@[simp] theorem State.bwAdvance_sink {w : Nat} (n : Nat) (v : BitVec w) : (s.bwAdvance n v).sink = s.sink := rfl
@[simp] theorem State.bwAdvance_pending {w : Nat} (n : Nat) (v : BitVec w) : (s.bwAdvance n v).pending = s.pending := rfl
@[simp] theorem State.bwAdvance_responses {w : Nat} (n : Nat) (v : BitVec w) : (s.bwAdvance n v).responses = s.responses := rfl

/-! ### brSession -/

@[simp] theorem State.brSession_storageBytes (c : Pos) : (s.brSession c).storageBytes = s.storageBytes := rfl
@[simp] theorem State.brSession_bwCapacityBits (c : Pos) : (s.brSession c).bwCapacityBits = s.bwCapacityBits := rfl
@[simp] theorem State.brSession_bwCursorBits (c : Pos) : (s.brSession c).bwCursorBits = s.bwCursorBits := rfl
@[simp] theorem State.brSession_bwHighWaterBits (c : Pos) : (s.brSession c).bwHighWaterBits = s.bwHighWaterBits := rfl
@[simp] theorem State.brSession_bwMem (c : Pos) : (s.brSession c).bwMem = s.bwMem := rfl
@[simp] theorem State.brSession_brLengthBits (c : Pos) : (s.brSession c).brLengthBits = c := rfl
@[simp] theorem State.brSession_brCursorBits (c : Pos) : (s.brSession c).brCursorBits = 0 := rfl
@[simp] theorem State.brSession_brMem (c : Pos) : (s.brSession c).brMem = s.brMem := rfl
@[simp] theorem State.brSession_brImage (c : Pos) : (s.brSession c).brImage = s.brImage := rfl
@[simp] theorem State.brSession_draws (c : Pos) : (s.brSession c).draws = s.draws := rfl
@[simp] theorem State.brSession_source (c : Pos) : (s.brSession c).source = s.source := rfl
@[simp] theorem State.brSession_sink (c : Pos) : (s.brSession c).sink = s.sink := rfl
@[simp] theorem State.brSession_pending (c : Pos) : (s.brSession c).pending = s.pending := rfl
@[simp] theorem State.brSession_responses (c : Pos) : (s.brSession c).responses = s.responses := rfl

/-! ### brMoveTo -/

@[simp] theorem State.brMoveTo_storageBytes (p : Nat) : (s.brMoveTo p).storageBytes = s.storageBytes := rfl
@[simp] theorem State.brMoveTo_bwCapacityBits (p : Nat) : (s.brMoveTo p).bwCapacityBits = s.bwCapacityBits := rfl
@[simp] theorem State.brMoveTo_bwCursorBits (p : Nat) : (s.brMoveTo p).bwCursorBits = s.bwCursorBits := rfl
@[simp] theorem State.brMoveTo_bwHighWaterBits (p : Nat) : (s.brMoveTo p).bwHighWaterBits = s.bwHighWaterBits := rfl
@[simp] theorem State.brMoveTo_bwMem (p : Nat) : (s.brMoveTo p).bwMem = s.bwMem := rfl
@[simp] theorem State.brMoveTo_brLengthBits (p : Nat) : (s.brMoveTo p).brLengthBits = s.brLengthBits := rfl
@[simp] theorem State.brMoveTo_brCursorBits (p : Nat) : (s.brMoveTo p).brCursorBits = BitVec.ofNat 32 p := rfl
@[simp] theorem State.brMoveTo_brMem (p : Nat) : (s.brMoveTo p).brMem = s.brMem := rfl
@[simp] theorem State.brMoveTo_brImage (p : Nat) : (s.brMoveTo p).brImage = s.brImage := rfl
@[simp] theorem State.brMoveTo_draws (p : Nat) : (s.brMoveTo p).draws = s.draws := rfl
@[simp] theorem State.brMoveTo_source (p : Nat) : (s.brMoveTo p).source = s.source := rfl
@[simp] theorem State.brMoveTo_sink (p : Nat) : (s.brMoveTo p).sink = s.sink := rfl
@[simp] theorem State.brMoveTo_pending (p : Nat) : (s.brMoveTo p).pending = s.pending := rfl
@[simp] theorem State.brMoveTo_responses (p : Nat) : (s.brMoveTo p).responses = s.responses := rfl

/-! ### brLoad -/

@[simp] theorem State.brLoad_storageBytes (a : Nat) (b : Byte) : (s.brLoad a b).storageBytes = s.storageBytes := rfl
@[simp] theorem State.brLoad_bwCapacityBits (a : Nat) (b : Byte) : (s.brLoad a b).bwCapacityBits = s.bwCapacityBits := rfl
@[simp] theorem State.brLoad_bwCursorBits (a : Nat) (b : Byte) : (s.brLoad a b).bwCursorBits = s.bwCursorBits := rfl
@[simp] theorem State.brLoad_bwHighWaterBits (a : Nat) (b : Byte) : (s.brLoad a b).bwHighWaterBits = s.bwHighWaterBits := rfl
@[simp] theorem State.brLoad_bwMem (a : Nat) (b : Byte) : (s.brLoad a b).bwMem = s.bwMem := rfl
@[simp] theorem State.brLoad_brLengthBits (a : Nat) (b : Byte) : (s.brLoad a b).brLengthBits = s.brLengthBits := rfl
@[simp] theorem State.brLoad_brCursorBits (a : Nat) (b : Byte) : (s.brLoad a b).brCursorBits = s.brCursorBits := rfl
@[simp] theorem State.brLoad_brMem (a : Nat) (b : Byte) : (s.brLoad a b).brMem = s.brMem.write a b := rfl
@[simp] theorem State.brLoad_brImage (a : Nat) (b : Byte) : (s.brLoad a b).brImage = s.brImage := rfl
@[simp] theorem State.brLoad_draws (a : Nat) (b : Byte) : (s.brLoad a b).draws = s.draws := rfl
@[simp] theorem State.brLoad_source (a : Nat) (b : Byte) : (s.brLoad a b).source = s.source := rfl
@[simp] theorem State.brLoad_sink (a : Nat) (b : Byte) : (s.brLoad a b).sink = s.sink := rfl
@[simp] theorem State.brLoad_pending (a : Nat) (b : Byte) : (s.brLoad a b).pending = s.pending := rfl
@[simp] theorem State.brLoad_responses (a : Nat) (b : Byte) : (s.brLoad a b).responses = s.responses := rfl

/-! ### drawn -/

@[simp] theorem State.drawn_storageBytes : (s.drawn).storageBytes = s.storageBytes := rfl
@[simp] theorem State.drawn_bwCapacityBits : (s.drawn).bwCapacityBits = s.bwCapacityBits := rfl
@[simp] theorem State.drawn_bwCursorBits : (s.drawn).bwCursorBits = s.bwCursorBits := rfl
@[simp] theorem State.drawn_bwHighWaterBits : (s.drawn).bwHighWaterBits = s.bwHighWaterBits := rfl
@[simp] theorem State.drawn_bwMem : (s.drawn).bwMem = s.bwMem := rfl
@[simp] theorem State.drawn_brLengthBits : (s.drawn).brLengthBits = s.brLengthBits := rfl
@[simp] theorem State.drawn_brCursorBits : (s.drawn).brCursorBits = s.brCursorBits := rfl
@[simp] theorem State.drawn_brMem : (s.drawn).brMem = s.brMem := rfl
@[simp] theorem State.drawn_brImage : (s.drawn).brImage = s.brImage := rfl
@[simp] theorem State.drawn_draws : (s.drawn).draws = s.draws + 1 := rfl
@[simp] theorem State.drawn_source : (s.drawn).source = s.source := rfl
@[simp] theorem State.drawn_sink : (s.drawn).sink = s.sink := rfl
@[simp] theorem State.drawn_pending : (s.drawn).pending = s.pending := rfl
@[simp] theorem State.drawn_responses : (s.drawn).responses = s.responses := rfl

/-! ### withSource -/

@[simp] theorem State.withSource_storageBytes (p : SrcPort) : (s.withSource p).storageBytes = s.storageBytes := rfl
@[simp] theorem State.withSource_bwCapacityBits (p : SrcPort) : (s.withSource p).bwCapacityBits = s.bwCapacityBits := rfl
@[simp] theorem State.withSource_bwCursorBits (p : SrcPort) : (s.withSource p).bwCursorBits = s.bwCursorBits := rfl
@[simp] theorem State.withSource_bwHighWaterBits (p : SrcPort) : (s.withSource p).bwHighWaterBits = s.bwHighWaterBits := rfl
@[simp] theorem State.withSource_bwMem (p : SrcPort) : (s.withSource p).bwMem = s.bwMem := rfl
@[simp] theorem State.withSource_brLengthBits (p : SrcPort) : (s.withSource p).brLengthBits = s.brLengthBits := rfl
@[simp] theorem State.withSource_brCursorBits (p : SrcPort) : (s.withSource p).brCursorBits = s.brCursorBits := rfl
@[simp] theorem State.withSource_brMem (p : SrcPort) : (s.withSource p).brMem = s.brMem := rfl
@[simp] theorem State.withSource_brImage (p : SrcPort) : (s.withSource p).brImage = s.brImage := rfl
@[simp] theorem State.withSource_draws (p : SrcPort) : (s.withSource p).draws = s.draws := rfl
@[simp] theorem State.withSource_source (p : SrcPort) : (s.withSource p).source = p := rfl
@[simp] theorem State.withSource_sink (p : SrcPort) : (s.withSource p).sink = s.sink := rfl
@[simp] theorem State.withSource_pending (p : SrcPort) : (s.withSource p).pending = s.pending := rfl
@[simp] theorem State.withSource_responses (p : SrcPort) : (s.withSource p).responses = s.responses := rfl

/-! ### withSink -/

@[simp] theorem State.withSink_storageBytes (p : SinkPort) : (s.withSink p).storageBytes = s.storageBytes := rfl
@[simp] theorem State.withSink_bwCapacityBits (p : SinkPort) : (s.withSink p).bwCapacityBits = s.bwCapacityBits := rfl
@[simp] theorem State.withSink_bwCursorBits (p : SinkPort) : (s.withSink p).bwCursorBits = s.bwCursorBits := rfl
@[simp] theorem State.withSink_bwHighWaterBits (p : SinkPort) : (s.withSink p).bwHighWaterBits = s.bwHighWaterBits := rfl
@[simp] theorem State.withSink_bwMem (p : SinkPort) : (s.withSink p).bwMem = s.bwMem := rfl
@[simp] theorem State.withSink_brLengthBits (p : SinkPort) : (s.withSink p).brLengthBits = s.brLengthBits := rfl
@[simp] theorem State.withSink_brCursorBits (p : SinkPort) : (s.withSink p).brCursorBits = s.brCursorBits := rfl
@[simp] theorem State.withSink_brMem (p : SinkPort) : (s.withSink p).brMem = s.brMem := rfl
@[simp] theorem State.withSink_brImage (p : SinkPort) : (s.withSink p).brImage = s.brImage := rfl
@[simp] theorem State.withSink_draws (p : SinkPort) : (s.withSink p).draws = s.draws := rfl
@[simp] theorem State.withSink_source (p : SinkPort) : (s.withSink p).source = s.source := rfl
@[simp] theorem State.withSink_sink (p : SinkPort) : (s.withSink p).sink = p := rfl
@[simp] theorem State.withSink_pending (p : SinkPort) : (s.withSink p).pending = s.pending := rfl
@[simp] theorem State.withSink_responses (p : SinkPort) : (s.withSink p).responses = s.responses := rfl

/-! ### withPending -/

@[simp] theorem State.withPending_storageBytes (es : List HostEvent) : (s.withPending es).storageBytes = s.storageBytes := rfl
@[simp] theorem State.withPending_bwCapacityBits (es : List HostEvent) : (s.withPending es).bwCapacityBits = s.bwCapacityBits := rfl
@[simp] theorem State.withPending_bwCursorBits (es : List HostEvent) : (s.withPending es).bwCursorBits = s.bwCursorBits := rfl
@[simp] theorem State.withPending_bwHighWaterBits (es : List HostEvent) : (s.withPending es).bwHighWaterBits = s.bwHighWaterBits := rfl
@[simp] theorem State.withPending_bwMem (es : List HostEvent) : (s.withPending es).bwMem = s.bwMem := rfl
@[simp] theorem State.withPending_brLengthBits (es : List HostEvent) : (s.withPending es).brLengthBits = s.brLengthBits := rfl
@[simp] theorem State.withPending_brCursorBits (es : List HostEvent) : (s.withPending es).brCursorBits = s.brCursorBits := rfl
@[simp] theorem State.withPending_brMem (es : List HostEvent) : (s.withPending es).brMem = s.brMem := rfl
@[simp] theorem State.withPending_brImage (es : List HostEvent) : (s.withPending es).brImage = s.brImage := rfl
@[simp] theorem State.withPending_draws (es : List HostEvent) : (s.withPending es).draws = s.draws := rfl
@[simp] theorem State.withPending_source (es : List HostEvent) : (s.withPending es).source = s.source := rfl
@[simp] theorem State.withPending_sink (es : List HostEvent) : (s.withPending es).sink = s.sink := rfl
@[simp] theorem State.withPending_pending (es : List HostEvent) : (s.withPending es).pending = es := rfl
@[simp] theorem State.withPending_responses (es : List HostEvent) : (s.withPending es).responses = s.responses := rfl

/-! ### gave -/

@[simp] theorem State.gave_storageBytes (r : Response) : (s.gave r).storageBytes = s.storageBytes := rfl
@[simp] theorem State.gave_bwCapacityBits (r : Response) : (s.gave r).bwCapacityBits = s.bwCapacityBits := rfl
@[simp] theorem State.gave_bwCursorBits (r : Response) : (s.gave r).bwCursorBits = s.bwCursorBits := rfl
@[simp] theorem State.gave_bwHighWaterBits (r : Response) : (s.gave r).bwHighWaterBits = s.bwHighWaterBits := rfl
@[simp] theorem State.gave_bwMem (r : Response) : (s.gave r).bwMem = s.bwMem := rfl
@[simp] theorem State.gave_brLengthBits (r : Response) : (s.gave r).brLengthBits = s.brLengthBits := rfl
@[simp] theorem State.gave_brCursorBits (r : Response) : (s.gave r).brCursorBits = s.brCursorBits := rfl
@[simp] theorem State.gave_brMem (r : Response) : (s.gave r).brMem = s.brMem := rfl
@[simp] theorem State.gave_brImage (r : Response) : (s.gave r).brImage = s.brImage := rfl
@[simp] theorem State.gave_draws (r : Response) : (s.gave r).draws = s.draws := rfl
@[simp] theorem State.gave_source (r : Response) : (s.gave r).source = s.source := rfl
@[simp] theorem State.gave_sink (r : Response) : (s.gave r).sink = s.sink := rfl
@[simp] theorem State.gave_pending (r : Response) : (s.gave r).pending = s.pending := rfl
@[simp] theorem State.gave_responses (r : Response) : (s.gave r).responses = s.responses ++ [r] := rfl

end Sys2Proof.Machine
end

