-- ==== Sys2Proof/Laws/Commands.lean ====
section
/-! SUPPORT. One lemma per shared operation that says everything it can do when it answers a next state, and the frames of
the updates. -/

namespace Sys2Proof.Machine

@[simp] theorem respond_eq (r : Data) (c : BitVec 8) (s : State) : respond r c s = .next (s.gave ⟨.ok, c, r⟩) := rfl

@[simp] theorem raise_eq (e : ErrorKind) (s : State) : raise e s = .next (s.gave ⟨.error e, 0, 0⟩) := rfl

/-! ### What each shared procedure answers -/

/-- `BWWrite` (R58): refused with Overflow, or the field is inserted and the cursor advanced. -/
theorem bwWrite_next {w : Nat} {n : Byte} {v : BitVec w} {s t : State} (h : bwWrite n v s = .next t) :
    t = s.gave ⟨.error .overflow, 0, 0⟩ ∨
    (n.toNat ≤ w ∧ s.bwCursorBits.toNat + n.toNat ≤ s.bwCapacityBits.toNat ∧
      s.bwCursorBits.toNat + n.toNat ≤ s.storageBits ∧ t = (s.bwAdvance n.toNat v).gave ⟨.ok, 0, 0⟩) := by
  simp only [bwWrite, raise_eq, respond_eq] at h
  split at h
  · exact .inl (by simpa using h.symm)
  · split at h
    · exact .inl (by simpa using h.symm)
    · split at h
      · cases h
      · exact .inr ⟨by omega, by omega, by omega, by simpa using h.symm⟩

theorem bwWrite_ok {w : Nat} {n : Byte} {v : BitVec w} {s : State} (hn : n.toNat ≤ w)
    (hc : s.bwCursorBits.toNat + n.toNat ≤ s.bwCapacityBits.toNat)
    (hs : s.bwCapacityBits.toNat ≤ 8 * s.storageBytes) :
    bwWrite n v s = .next ((s.bwAdvance n.toNat v).gave ⟨.ok, 0, 0⟩) := by
  rw [bwWrite, if_neg (by omega), if_neg (by omega), if_neg (by simp only [State.storageBits]; omega), respond_eq]

theorem bwWrite_overflow {w : Nat} {n : Byte} {v : BitVec w} {s : State}
    (h : w < n.toNat ∨ s.bwCapacityBits.toNat < s.bwCursorBits.toNat + n.toNat) :
    bwWrite n v s = .next (s.gave ⟨.error .overflow, 0, 0⟩) := by
  rw [bwWrite, raise_eq]
  split
  · rfl
  · rw [if_pos (by omega)]

/-- `BRRead` (R65): refused with Overflow or Eof, or the field is returned and the cursor advanced. -/
theorem brRead_next {w : Nat} {n : Byte} {s t : State} (h : brRead w n s = .next t) :
    t = s.gave ⟨.error .overflow, 0, 0⟩ ∨ t = s.gave ⟨.error .eof, 0, 0⟩ ∨
    (n.toNat ≤ w ∧ s.brCursorBits.toNat + n.toNat ≤ s.brLengthBits.toNat ∧
      s.brCursorBits.toNat + n.toNat ≤ s.storageBits ∧
      t = (s.brMoveTo (s.brCursorBits.toNat + n.toNat)).gave
        ⟨.ok, 0, BitVec.ofNat 64 (fieldExtract s.brByte s.brCursorBits.toNat n.toNat)⟩) := by
  simp only [brRead, raise_eq, respond_eq] at h
  split at h
  · exact .inl (by simpa using h.symm)
  · split at h
    · exact .inr (.inl (by simpa using h.symm))
    · split at h
      · cases h
      · exact .inr (.inr ⟨by omega, by omega, by omega, by simpa using h.symm⟩)

theorem brRead_ok {w : Nat} {n : Byte} {s : State} (hn : n.toNat ≤ w)
    (hc : s.brCursorBits.toNat + n.toNat ≤ s.brLengthBits.toNat)
    (hs : s.brLengthBits.toNat ≤ 8 * s.storageBytes) :
    brRead w n s = .next ((s.brMoveTo (s.brCursorBits.toNat + n.toNat)).gave
      ⟨.ok, 0, BitVec.ofNat 64 (fieldExtract s.brByte s.brCursorBits.toNat n.toNat)⟩) := by
  rw [brRead, if_neg (by omega), if_neg (by omega), if_neg (by simp only [State.storageBits]; omega), respond_eq]

/-- `UVarintEncode` (R82): all bytes accepted, or Io. -/
theorem uvarintEncode_next {w : Nat} {u : BitVec w} {s t : State} (h : uvarintEncode u s = .next t) :
    ∃ p, t = (s.withSink p).gave ⟨.ok, toCount (uvarintBytes u).length, 0⟩ ∨
      t = (s.withSink p).gave ⟨.error .io, 0, 0⟩ := by
  simp only [uvarintEncode, raise_eq, respond_eq] at h
  split at h
  · rename_i p _; exact ⟨p, .inl (by simpa using h.symm)⟩
  · rename_i p _; exact ⟨p, .inr (by simpa using h.symm)⟩
  · cases h

/-- `UVarintDecode` (R88): a value, or one of its errors. -/
theorem uvarintDecode_next {w : Nat} {f : BitVec w → BitVec w} {s t : State} (h : uvarintDecode f s = .next t) :
    ∃ p, (∃ v k, t = (s.withSource p).gave ⟨.ok, toCount k, zext64 (f v)⟩) ∨
      ∃ e, t = (s.withSource p).gave ⟨.error e, 0, 0⟩ := by
  simp only [uvarintDecode, raise_eq, respond_eq] at h
  split at h
  · rename_i v k p _; exact ⟨p, .inl ⟨v, k, by simpa using h.symm⟩⟩
  · rename_i e p _; exact ⟨p, .inr ⟨e, by simpa using h.symm⟩⟩
  · cases h

/-- BWNEW (R59). -/
theorem execBwnew_next {cap : Data} {s t : State} (h : execBwnew cap s = .next t) :
    t = s.gave ⟨.error .overflow, 0, 0⟩ ∨
    (cap.toNat ≤ s.storageBytes ∧ t = (s.bwSession (toPos (8 * cap.toNat))).gave ⟨.ok, 0, 0⟩) := by
  simp only [execBwnew, raise_eq, respond_eq] at h
  split at h
  · exact .inl (by simpa using h.symm)
  · exact .inr ⟨by omega, by simpa using h.symm⟩

/-- BWRDB (R63). -/
theorem execBwrdb_next {addr : Data} {s t : State} (h : execBwrdb addr s = .next t) :
    t = s.gave ⟨.error .overflow, 0, 0⟩ ∨
    (addr.toNat < s.bwPrefixBytes ∧ addr.toNat < s.storageBytes ∧
      t = (if (bwReadByte s addr.toNat).2 then s.drawn else s).gave
        ⟨.ok, 0, zext64 (bwReadByte s addr.toNat).1⟩) := by
  simp only [execBwrdb, raise_eq, respond_eq] at h
  split at h
  · exact .inl (by simpa using h.symm)
  · split at h
    · cases h
    · exact .inr ⟨by omega, by omega, by simpa using h.symm⟩

/-- BRNEW (R66). -/
theorem execBrnew_next {len : Data} {s t : State} (h : execBrnew len s = .next t) :
    t = s.gave ⟨.error .overflow, 0, 0⟩ ∨
    (len.toNat ≤ s.storageBits ∧ t = (s.brSession (toPos len.toNat)).gave ⟨.ok, 0, 0⟩) := by
  simp only [execBrnew, raise_eq, respond_eq] at h
  split at h
  · exact .inl (by simpa using h.symm)
  · exact .inr ⟨by omega, by simpa using h.symm⟩

/-- BRSEEK (R70). -/
theorem execBrseek_next {pos : Data} {s t : State} (h : execBrseek pos s = .next t) :
    t = s.gave ⟨.error .overflow, 0, 0⟩ ∨
    (pos.toNat ≤ s.brLengthBits.toNat ∧ t = (s.brMoveTo pos.toNat).gave ⟨.ok, 0, 0⟩) := by
  simp only [execBrseek, raise_eq, respond_eq] at h
  split at h
  · exact .inl (by simpa using h.symm)
  · exact .inr ⟨by omega, by simpa using h.symm⟩

/-- BRLDB (R67). -/
theorem execBrldb_next {addr : Data} {byte : Byte} {s t : State} (h : execBrldb addr byte s = .next t) :
    t = s.gave ⟨.error .overflow, 0, 0⟩ ∨
    (addr.toNat < s.storageBytes ∧ t = (s.brLoad addr.toNat byte).gave ⟨.ok, 0, 0⟩) := by
  simp only [execBrldb, raise_eq, respond_eq] at h
  split at h
  · exact .inl (by simpa using h.symm)
  · exact .inr ⟨by omega, by simpa using h.symm⟩

/-! ### The byte BWRDB returns -/

theorem specifiedMask_getLsbD (highWater addr j : Nat) (hj : j < 8) :
    (specifiedMask highWater addr).getLsbD j = decide (8 * addr + j < highWater) := by
  rw [specifiedMask, BitVec.getLsbD_ofNat, Nat.testBit_two_pow_sub_one]
  simp [hj]
  omega

/-- Each bit BWRDB returns is the stored one below the high-water mark of a listed byte, and a free one elsewhere
(R63, U1). -/
theorem bwReadByte_getLsbD (s : State) (addr j : Nat) (hj : j < 8) :
    (bwReadByte s addr).1.getLsbD j =
      match s.bwMem.read addr with
      | none => (Config.freeByte s.draws addr).getLsbD j
      | some b => if 8 * addr + j < s.bwHighWaterBits.toNat then b.getLsbD j
          else (Config.freeByte s.draws addr).getLsbD j := by
  rw [bwReadByte, Memory.byteAt]
  by_cases h : 8 * addr + 8 ≤ s.bwHighWaterBits.toNat
  · have h' : 8 * addr + j < s.bwHighWaterBits.toNat := by omega
    cases s.bwMem.read addr <;> simp [h, h']
  · simp only [if_neg h, BitVec.getLsbD_or, BitVec.getLsbD_and, BitVec.getLsbD_not,
      specifiedMask_getLsbD _ _ _ hj, hj]
    cases s.bwMem.read addr <;> by_cases h' : 8 * addr + j < s.bwHighWaterBits.toNat <;> simp [h']

/-- Pad bits are drawn exactly when the byte is not wholly below the high-water mark (R63, U1). -/
theorem bwReadByte_drawn (s : State) (addr : Nat) :
    (bwReadByte s addr).2 = !decide (8 * addr + 8 ≤ s.bwHighWaterBits.toNat) := by
  rw [bwReadByte]
  split <;> simp [*]

/-- `zext_64` of a byte keeps its bits. -/
theorem zext64_getLsbD_byte (b : Byte) (j : Nat) : (zext64 b).getLsbD j = b.getLsbD j := by
  rw [zext64, BitVec.getLsbD_setWidth]
  by_cases h : j < 8
  · have : j < 64 := by omega
    simp [this]
  · rw [BitVec.getLsbD_of_ge b j (by omega), Bool.and_false]

/-! ### Every memory operation keeps the canonical form -/

/-- No step breaks the canonical form of either storage (log 3). -/
theorem bwAdvance_wf {w : Nat} {s : State} (h : s.bwMem.wf) (n : Nat) (v : BitVec w) : (s.bwAdvance n v).bwMem.wf :=
  fieldInsert_wf h _ _ _

theorem brLoad_wf {s : State} (h : s.brMem.wf) (a : Nat) (b : Byte) : (s.brLoad a b).brMem.wf := Memory.wf_write h _ _

theorem bwSession_wf (s : State) (c : Pos) : (s.bwSession c).bwMem.wf := Memory.wf_nil

theorem reset_wf : State.reset.bwMem.wf ∧ State.reset.brMem.wf := ⟨Memory.wf_nil, Memory.wf_nil⟩

end Sys2Proof.Machine
end

