-- ==== Sys2Proof/Laws/Encoding.lean ====
section
/-! SUPPORT. The three fields of a command word (R39): each is read back from the word it was put into, and a word is its
fields. -/

namespace Sys2Proof

@[simp] theorem opField_cmdWord (op n : Byte) (d : Data) : opField (cmdWord op n d) = op := by
  simp only [opField, cmdWord]
  apply BitVec.eq_of_getLsbD_eq
  intro i hi
  rw [BitVec.getLsbD_extractLsb', BitVec.getLsbD_append, BitVec.getLsbD_append]
  have h1 : ¬72 + i < 64 := by omega
  have h2 : ¬72 + i - 64 < 8 := by omega
  have h3 : 72 + i - 64 - 8 = i := by omega
  simp [hi, h1, h2, h3]

@[simp] theorem nField_cmdWord (op n : Byte) (d : Data) : nField (cmdWord op n d) = n := by
  simp only [nField, cmdWord]
  apply BitVec.eq_of_getLsbD_eq
  intro i hi
  rw [BitVec.getLsbD_extractLsb', BitVec.getLsbD_append, BitVec.getLsbD_append]
  simp [hi]

@[simp] theorem dataField_cmdWord (op n : Byte) (d : Data) : dataField (cmdWord op n d) = d := by
  simp only [dataField, cmdWord]
  apply BitVec.eq_of_getLsbD_eq
  intro i hi
  rw [BitVec.getLsbD_extractLsb', BitVec.getLsbD_append, BitVec.getLsbD_append]
  simp [hi]

@[simp] theorem data32Field_cmdWord (op n : Byte) (d : Data) : data32Field (cmdWord op n d) = d.setWidth 32 := by
  simp only [data32Field, cmdWord]
  apply BitVec.eq_of_getLsbD_eq
  intro i hi
  rw [BitVec.getLsbD_extractLsb', BitVec.getLsbD_append, BitVec.getLsbD_append]
  have : i < 64 := by omega
  simp [hi, this]

/-- A command word is its three fields (R39). -/
theorem cmdWord_fields (w : CmdWord) : cmdWord (opField w) (nField w) (dataField w) = w := by
  apply BitVec.eq_of_getLsbD_eq
  intro i hi
  simp only [cmdWord, opField, nField, dataField]
  rw [BitVec.getLsbD_append, BitVec.getLsbD_append]
  split
  · rename_i h; simp [h]
  · split
    · rename_i h h'; simp [h']; congr 1; omega
    · have : i - 64 - 8 < 8 := by omega
      simp [this]; congr 1; omega

/-- `data[31:0]` is the low half of the field `data` (R40). -/
theorem data32Field_eq (w : CmdWord) : data32Field w = (dataField w).setWidth 32 := by
  conv_lhs => rw [← cmdWord_fields w]
  rw [data32Field_cmdWord]

/-- A `data` field whose upper half is 0 is its low half zero-extended. -/
theorem data32Field_zeroExtend (w : CmdWord) (h : (dataField w).toNat < 2 ^ 32) :
    (data32Field w).zeroExtend 64 = dataField w := by
  rw [data32Field_eq]
  apply BitVec.eq_of_toNat_eq
  simp
  omega

end Sys2Proof
end

