-- ==== Sys2Proof/Laws/Fields.lean ====
section
/-! SUPPORT. The bits of the byte-wise forms of field extraction and insertion (R55), and insertion into two storages that
agree below the field. -/

namespace Sys2Proof.Machine

theorem and_seven (c : Nat) : c &&& 7 = c % 8 := Nat.and_two_pow_sub_one_eq_mod c 3

theorem assembleBytes_lt (f : Nat → Byte) (a k : Nat) : assembleBytes f a k < 2 ^ (8 * k) := by
  induction k with
  | zero => simp [assembleBytes]
  | succ k ih =>
    rw [assembleBytes, show 8 * (k + 1) = 8 * k + 8 by ring, pow_add]
    have := (f (a + k)).isLt
    nlinarith [Nat.one_le_two_pow (n := 8 * k)]

/-- The bits of assembled bytes are the bits of the storage. -/
theorem assembleBytes_testBit (f : Nat → Byte) (a k j : Nat) :
    (assembleBytes f a k).testBit j = (decide (j < 8 * k) && arrayBit f (8 * a + j)) := by
  induction k with
  | zero => simp [assembleBytes]
  | succ k ih =>
    rw [assembleBytes, Nat.add_comm, Nat.mul_comm, Nat.testBit_two_pow_mul_add _ (assembleBytes_lt f a k)]
    split
    · rename_i h
      have h2 : j < 8 * (k + 1) := by omega
      rw [ih, decide_eq_true h, decide_eq_true h2]
    · rename_i h
      by_cases h2 : j < 8 * (k + 1)
      · have h1 : (8 * a + j) / 8 = a + k := by omega
        have h3 : (8 * a + j) % 8 = j - 8 * k := by omega
        rw [decide_eq_true h2, Bool.true_and, arrayBit, h1, h3, BitVec.getLsbD]
      · rw [decide_eq_false h2, Bool.false_and]
        exact BitVec.getLsbD_of_ge _ _ (by omega)

/-- What the byte-wise insertion leaves in each byte. -/
theorem fieldInsertBytewise_read {w : Nat} (m : Memory) (c n : Nat) (v : BitVec w) (k a : Nat) :
    (fieldInsertBytewise m c n v k).read a =
      if c / 8 ≤ a ∧ a < c / 8 + k then some (insertedByte c n v (a - c / 8) ((m.read a).getD 0)) else m.read a := by
  induction k generalizing a with
  | zero => simp [fieldInsertBytewise]
  | succ k ih =>
    have hc : c >>> 3 = c / 8 := Nat.shiftRight_eq_div_pow c 3
    simp only [fieldInsertBytewise, Memory.read_write, hc]
    by_cases h : c / 8 + k = a
    · subst h
      have e1 : c / 8 + k - c / 8 = k := by omega
      rw [if_pos rfl, ih, if_neg (by omega), if_pos (by omega), e1]
    · rw [if_neg h, ih]
      by_cases h2 : c / 8 ≤ a ∧ a < c / 8 + k
      · rw [if_pos h2, if_pos (by omega)]
      · rw [if_neg h2, if_neg (by omega)]

/-- Every bit of the bytes after an insertion, a byte that is not listed counting as 0. -/
theorem fieldInsert_getLsbD {w : Nat} (m : Memory) (c n : Nat) (v : BitVec w) (p : Nat) :
    (((fieldInsert m c v n).read (p / 8)).getD 0).getLsbD (p % 8) =
      if c ≤ p ∧ p < c + n then v.getLsbD (p - c) else ((m.read (p / 8)).getD 0).getLsbD (p % 8) := by
  induction n with
  | zero => simp [fieldInsert]
  | succ n ih =>
    have hp : p % 8 < 8 := Nat.mod_lt _ (by decide)
    have hq : (c + n) % 8 < 8 := Nat.mod_lt _ (by decide)
    rw [fieldInsert, bitWrite_read]
    split
    · rename_i h
      rw [Option.getD_some, setBit_getLsbD _ _ _ hq hp, h, ih]
      by_cases he : p = c + n
      · subst he; simp
      · rw [if_neg (by omega)]
        by_cases h3 : c ≤ p ∧ p < c + n
        · rw [if_pos h3, if_pos (by omega)]
        · rw [if_neg h3, if_neg (by omega)]
    · rename_i h
      rw [ih]
      have : p ≠ c + n := by rintro rfl; exact h rfl
      by_cases h3 : c ≤ p ∧ p < c + n
      · rw [if_pos h3, if_pos (by omega)]
      · rw [if_neg h3, if_neg (by omega)]

/-- Two storages that agree on every bit below a position still agree below the next one after a bit write there. -/
theorem bitWrite_agree {m m' : Memory} {p : Nat} (b : Bool) (h : ∀ q < p, m'.bitAt q = m.bitAt q) :
    ∀ q ≤ p, (bitWrite m' p b).bitAt q = (bitWrite m p b).bitAt q := by
  intro q hq
  by_cases he : q = p
  · subst he; rw [bitWrite_bitAt_self, bitWrite_bitAt_self]
  · have hqe : m'.bitAt q = m.bitAt q := h q (by omega)
    rw [bitWrite_bitAt_of_ne _ he, bitWrite_bitAt_of_ne _ he]
    split
    · rename_i hb
      simp only [Memory.bitAt] at hqe
      rw [hb]
      cases h1 : m'.read (q / 8) <;> cases h2 : m.read (q / 8) <;> simp_all
    · exact hqe

/-- The same for a field. -/
theorem fieldInsert_agree {w : Nat} {m m' : Memory} {c : Nat} (v : BitVec w) (n : Nat)
    (h : ∀ q < c, m'.bitAt q = m.bitAt q) :
    ∀ q < c + n, (fieldInsert m' c v n).bitAt q = (fieldInsert m c v n).bitAt q := by
  induction n with
  | zero => exact h
  | succ n ih => exact fun q hq => bitWrite_agree _ ih q (by omega)

end Sys2Proof.Machine
end

