-- ==== Sys2Proof/Laws/PerInstr.lean ====
section
/-! SUPPORT. The per-instruction family EncodesWellFormed: the word of every command is one the spec's assembler writes
(R42, R45). -/

namespace Sys2Proof.Laws.EncodesWellFormed

/-- The word of a command passes the three checks of a well-formed word. -/
def Statement (i : Instr) : Prop := wellFormedWord (encode i) = true

/-- A word put together from a legal opcode and fields of which only the used bits are set is well formed. -/
theorem wellFormedWord_cmdWord {op n : Byte} {d : Data} (r : FieldUse) (h : fieldUse op = some r)
    (hn : r.usesN = true ∨ n = 0) (hd : d.toNat < 2 ^ r.dataBits) : wellFormedWord (cmdWord op n d) = true := by
  have ho : (cmdWord op n d).extractLsb' 72 8 = op := opField_cmdWord op n d
  have hf : (cmdWord op n d).extractLsb' 64 8 = n := nField_cmdWord op n d
  have hx : (cmdWord op n d).extractLsb' 0 64 = d := dataField_cmdWord op n d
  simp only [wellFormedWord, opIsLegal, unusedNIsZero, unusedDataIsZero, ho, hf, hx, h]
  simpa using ⟨hn, hd⟩

theorem zeroExtend_lt (v : BitVec 32) : (v.zeroExtend 64).toNat < 2 ^ 32 := by
  simp
  omega

theorem bwnew (cap : Data) : Statement (.bwnew cap) :=
  wellFormedWord_cmdWord ⟨0x00, false, 64⟩ (by decide) (.inr rfl) cap.isLt

theorem bwfin : Statement (.bwfin) :=
  wellFormedWord_cmdWord ⟨0x01, false, 0⟩ (by decide) (.inr rfl) (by decide)

theorem wrbits32 (n : Byte) (v : BitVec 32) : Statement (.wrbits32 n v) :=
  wellFormedWord_cmdWord ⟨0x02, true, 32⟩ (by decide) (.inl rfl) (zeroExtend_lt v)

theorem wrbits64 (n : Byte) (v : BitVec 64) : Statement (.wrbits64 n v) :=
  wellFormedWord_cmdWord ⟨0x03, true, 64⟩ (by decide) (.inl rfl) v.isLt

theorem bwrdb (addr : Data) : Statement (.bwrdb addr) :=
  wellFormedWord_cmdWord ⟨0x04, false, 64⟩ (by decide) (.inr rfl) addr.isLt

theorem brnew (len : Data) : Statement (.brnew len) :=
  wellFormedWord_cmdWord ⟨0x10, false, 64⟩ (by decide) (.inr rfl) len.isLt

theorem brseek (pos : Data) : Statement (.brseek pos) :=
  wellFormedWord_cmdWord ⟨0x11, false, 64⟩ (by decide) (.inr rfl) pos.isLt

theorem rdbits32 (n : Byte) : Statement (.rdbits32 n) :=
  wellFormedWord_cmdWord ⟨0x12, true, 0⟩ (by decide) (.inl rfl) (by decide)

theorem rdbits64 (n : Byte) : Statement (.rdbits64 n) :=
  wellFormedWord_cmdWord ⟨0x13, true, 0⟩ (by decide) (.inl rfl) (by decide)

theorem brldb (addr : Data) (byte : Byte) : Statement (.brldb addr byte) :=
  wellFormedWord_cmdWord ⟨0x14, true, 64⟩ (by decide) (.inl rfl) addr.isLt

theorem zzenc32 (v : BitVec 32) : Statement (.zzenc32 v) :=
  wellFormedWord_cmdWord ⟨0x20, false, 32⟩ (by decide) (.inr rfl) (zeroExtend_lt v)

theorem zzenc64 (v : BitVec 64) : Statement (.zzenc64 v) :=
  wellFormedWord_cmdWord ⟨0x21, false, 64⟩ (by decide) (.inr rfl) v.isLt

theorem zzdec32 (v : BitVec 32) : Statement (.zzdec32 v) :=
  wellFormedWord_cmdWord ⟨0x22, false, 32⟩ (by decide) (.inr rfl) (zeroExtend_lt v)

theorem zzdec64 (v : BitVec 64) : Statement (.zzdec64 v) :=
  wellFormedWord_cmdWord ⟨0x23, false, 64⟩ (by decide) (.inr rfl) v.isLt

theorem wruv32 (v : BitVec 32) : Statement (.wruv32 v) :=
  wellFormedWord_cmdWord ⟨0x30, false, 32⟩ (by decide) (.inr rfl) (zeroExtend_lt v)

theorem wruv64 (v : BitVec 64) : Statement (.wruv64 v) :=
  wellFormedWord_cmdWord ⟨0x31, false, 64⟩ (by decide) (.inr rfl) v.isLt

theorem wrsv32 (v : BitVec 32) : Statement (.wrsv32 v) :=
  wellFormedWord_cmdWord ⟨0x32, false, 32⟩ (by decide) (.inr rfl) (zeroExtend_lt v)

theorem wrsv64 (v : BitVec 64) : Statement (.wrsv64 v) :=
  wellFormedWord_cmdWord ⟨0x33, false, 64⟩ (by decide) (.inr rfl) v.isLt

theorem rduv32 : Statement (.rduv32) :=
  wellFormedWord_cmdWord ⟨0x40, false, 0⟩ (by decide) (.inr rfl) (by decide)

theorem rduv64 : Statement (.rduv64) :=
  wellFormedWord_cmdWord ⟨0x41, false, 0⟩ (by decide) (.inr rfl) (by decide)

theorem rdsv32 : Statement (.rdsv32) :=
  wellFormedWord_cmdWord ⟨0x42, false, 0⟩ (by decide) (.inr rfl) (by decide)

theorem rdsv64 : Statement (.rdsv64) :=
  wellFormedWord_cmdWord ⟨0x43, false, 0⟩ (by decide) (.inr rfl) (by decide)

end Sys2Proof.Laws.EncodesWellFormed
end

