-- ==== Sys2Proof/Laws/Steps.lean ====
section
/-! SUPPORT. Everything a command and a step can do when they answer a next state, each said once. -/

namespace Sys2Proof.Machine

/-- Everything a completed command can have done to the block. -/
inductive Effect (i : Instr) (s : State) : State → Prop
  /-- It failed without a port call (R98). -/
  | failed (e : ErrorKind) (he : e ≠ .io) : Effect i s (s.gave ⟨.error e, 0, 0⟩)
  /-- It gave a result and changed no state. -/
  | answered (r : Data) : Effect i s (s.gave ⟨.ok, 0, r⟩)
  /-- BWNEW (R59). -/
  | writerSession (cap : Data) (hi : i = .bwnew cap) (hc : cap.toNat ≤ s.storageBytes) :
      Effect i s ((s.bwSession (toPos (8 * cap.toNat))).gave ⟨.ok, 0, 0⟩)
  /-- WRBITS32 or WRBITS64 (R60, R61). -/
  | written {w : Nat} (n : Byte) (v : BitVec w) (hi : (∃ v', i = .wrbits32 n v') ∨ ∃ v', i = .wrbits64 n v')
      (hn : n.toNat ≤ w) (hc : s.bwCursorBits.toNat + n.toNat ≤ s.bwCapacityBits.toNat)
      (hs : s.bwCursorBits.toNat + n.toNat ≤ s.storageBits) :
      Effect i s ((s.bwAdvance n.toNat v).gave ⟨.ok, 0, 0⟩)
  /-- BWRDB of a byte with unspecified bits (R63, U1). -/
  | drawn (a r : Data) (hi : i = .bwrdb a) : Effect i s (s.drawn.gave ⟨.ok, 0, r⟩)
  /-- BRNEW (R66). -/
  | readerSession (len : Data) (hi : i = .brnew len) (hl : len.toNat ≤ s.storageBits) :
      Effect i s ((s.brSession (toPos len.toNat)).gave ⟨.ok, 0, 0⟩)
  /-- BRSEEK, RDBITS32 or RDBITS64 (R65, R70). -/
  | moved (p : Nat) (r : Data) (hi : (∃ q, i = .brseek q) ∨ (∃ n, i = .rdbits32 n) ∨ ∃ n, i = .rdbits64 n)
      (hp : p ≤ s.brLengthBits.toNat) : Effect i s ((s.brMoveTo p).gave ⟨.ok, 0, r⟩)
  /-- BRLDB (R67). -/
  | loaded (a : Data) (b : Byte) (hi : i = .brldb a b) (ha : a.toNat < s.storageBytes) :
      Effect i s ((s.brLoad a.toNat b).gave ⟨.ok, 0, 0⟩)
  /-- A VE command whose bytes were all accepted (R82). -/
  | encoded (p : SinkPort) (k : BitVec 8) (hi : unitOf i = .ve) : Effect i s ((s.withSink p).gave ⟨.ok, k, 0⟩)
  /-- A VE command that failed (R81). -/
  | encodeFailed (p : SinkPort) (hi : unitOf i = .ve) : Effect i s ((s.withSink p).gave ⟨.error .io, 0, 0⟩)
  /-- A VD command that gave a value (R88). -/
  | decoded (p : SrcPort) (k : BitVec 8) (r : Data) (hi : unitOf i = .vd) :
      Effect i s ((s.withSource p).gave ⟨.ok, k, r⟩)
  /-- A VD command that failed (R93). -/
  | decodeFailed (p : SrcPort) (e : ErrorKind) (hi : unitOf i = .vd) :
      Effect i s ((s.withSource p).gave ⟨.error e, 0, 0⟩)

theorem effect_of_encode {w : Nat} {u : BitVec w} {i : Instr} {s t : State} (hi : unitOf i = .ve)
    (h : uvarintEncode u s = .next t) : Effect i s t := by
  obtain ⟨p, rfl | rfl⟩ := uvarintEncode_next h
  · exact .encoded p _ hi
  · exact .encodeFailed p hi

theorem effect_of_decode {w : Nat} {f : BitVec w → BitVec w} {i : Instr} {s t : State} (hi : unitOf i = .vd)
    (h : uvarintDecode f s = .next t) : Effect i s t := by
  obtain ⟨p, ⟨v, k, rfl⟩ | ⟨e, rfl⟩⟩ := uvarintDecode_next h
  · exact .decoded p _ _ hi
  · exact .decodeFailed p e hi

theorem effect_of_read {w : Nat} {n : Byte} {i : Instr} {s t : State}
    (hi : (∃ q, i = .brseek q) ∨ (∃ n, i = .rdbits32 n) ∨ ∃ n, i = .rdbits64 n) (h : brRead w n s = .next t) :
    Effect i s t := by
  rcases brRead_next h with rfl | rfl | ⟨-, hc, -, rfl⟩
  · exact .failed _ (by decide)
  · exact .failed _ (by decide)
  · exact .moved _ _ hi hc

/-- A command that answers a next state did one of the things `Effect` lists. -/
theorem exec_effect {i : Instr} {s t : State} (h : exec i s = .next t) : Effect i s t := by
  cases i with
  | bwnew cap => rcases execBwnew_next h with rfl | ⟨hc, rfl⟩; exacts [.failed _ (by decide), .writerSession cap rfl hc]
  | bwfin => injection h with h; subst h; exact .answered _
  | wrbits32 n v =>
    rcases bwWrite_next h with rfl | ⟨hn, hc, hs, rfl⟩
    exacts [.failed _ (by decide), .written n v (.inl ⟨v, rfl⟩) hn hc hs]
  | wrbits64 n v =>
    rcases bwWrite_next h with rfl | ⟨hn, hc, hs, rfl⟩
    exacts [.failed _ (by decide), .written n v (.inr ⟨v, rfl⟩) hn hc hs]
  | bwrdb a =>
    rcases execBwrdb_next h with rfl | ⟨-, -, rfl⟩
    · exact .failed _ (by decide)
    · split
      exacts [.drawn a _ rfl, .answered _]
  | brnew len => rcases execBrnew_next h with rfl | ⟨hl, rfl⟩; exacts [.failed _ (by decide), .readerSession len rfl hl]
  | brseek p => rcases execBrseek_next h with rfl | ⟨hp, rfl⟩; exacts [.failed _ (by decide), .moved _ _ (.inl ⟨p, rfl⟩) hp]
  | rdbits32 n => exact effect_of_read (.inr (.inl ⟨n, rfl⟩)) h
  | rdbits64 n => exact effect_of_read (.inr (.inr ⟨n, rfl⟩)) h
  | brldb a b => rcases execBrldb_next h with rfl | ⟨ha, rfl⟩; exacts [.failed _ (by decide), .loaded a b rfl ha]
  | zzenc32 v => injection h with h; subst h; exact .answered _
  | zzenc64 v => injection h with h; subst h; exact .answered _
  | zzdec32 v => injection h with h; subst h; exact .answered _
  | zzdec64 v => injection h with h; subst h; exact .answered _
  | wruv32 v => exact effect_of_encode rfl h
  | wruv64 v => exact effect_of_encode rfl h
  | wrsv32 v => exact effect_of_encode rfl h
  | wrsv64 v => exact effect_of_encode rfl h
  | rduv32 => exact effect_of_decode rfl h
  | rduv64 => exact effect_of_decode rfl h
  | rdsv32 => exact effect_of_decode rfl h
  | rdsv64 => exact effect_of_decode rfl h

/-- Everything a step that answers a next state can have been. -/
inductive StepEffect (s : State) : State → Prop
  /-- Nothing was presented (log 7). -/
  | idle (hp : s.pending = []) : StepEffect s s
  /-- A legal command completed (R36). -/
  | command (w : CmdWord) (es : List HostEvent) (i : Instr) (t : State) (hp : s.pending = .command w :: es)
      (hd : decode w = .instr i) (h : exec i (s.withPending es) = .next t) : StepEffect s t
  /-- A command word with an illegal opcode (R104). -/
  | illegal (w : CmdWord) (op : Byte) (es : List HostEvent) (hp : s.pending = .command w :: es)
      (hd : decode w = .illegal op) : StepEffect s ((s.withPending es).gave ⟨.error .illegal, 0, 0⟩)
  /-- Reset (R112). -/
  | reset (es : List HostEvent) (t : State) (hp : s.pending = .reset :: es)
      (h : applyReset (s.withPending es) = .next t) : StepEffect s t
  /-- Another source attached (R121). -/
  | source (es : List HostEvent) (p : SrcPort) (hp : ∃ l a, s.pending = .attachSource l a :: es) :
      StepEffect s ((s.withPending es).withSource p)
  /-- Another sink attached (R121). -/
  | sink (es : List HostEvent) (p : SinkPort) (hp : ∃ l a, s.pending = .attachSink l a :: es) :
      StepEffect s ((s.withPending es).withSink p)

/-- A step that answers a next state was one of the things `StepEffect` lists. -/
theorem step_effect {s t : State} (h : step s = .next t) : StepEffect s t := by
  simp only [step] at h
  split at h
  · rename_i hp; injection h with h; subst h; exact .idle hp
  · rename_i w es hp
    split at h
    · rename_i i hd; exact .command w es i t hp hd h
    · rename_i op hd; injection h with h; subst h; exact .illegal w op es hp hd
  · rename_i es hp; exact .reset es t hp h
  · rename_i es hp; injection h with h; subst h; exact .source es _ ⟨_, _, hp⟩
  · rename_i es hp; injection h with h; subst h; exact .sink es _ ⟨_, _, hp⟩
  · cases h
  · cases h

/-- A run of one step and then the rest. -/
theorem run_succ {s t : State} (n : Nat) (h : step s = .next t) :
    Host.Core.run core (n + 1) s = Host.Core.run core n t := by
  have h' : core.step s = .next t := h
  simp only [Host.Core.run]
  rw [h']

/-- A position that fits 32 bits survives the register (R12). -/
theorem toNat_ofNat_pos {n : Nat} (h : n < 2 ^ 32) : (BitVec.ofNat 32 n).toNat = n := by
  simpa using h

theorem toNat_ofNat_pos_le (n : Nat) : (BitVec.ofNat 32 n).toNat ≤ n := by
  rw [BitVec.toNat_ofNat]
  exact Nat.mod_le n _

end Sys2Proof.Machine
end

