-- ==== Sys2Proof/Laws/Zigzag.lean ====
section
/-! SUPPORT. The zigzag mapping bit by bit (R72), at any width. -/

namespace Sys2Proof.Machine

/-- Bit `i` of a zigzag code is bit `i - 1` of the number, flipped where the number is negative. -/
theorem zigzagEnc_getLsbD {w : Nat} (x : BitVec w) {i : Nat} (hi : i < w) :
    (zigzagEnc x).getLsbD i = ((if i = 0 then false else x.getLsbD (i - 1)) ^^ x.msb) := by
  simp only [zigzagEnc, BitVec.getLsbD_xor, BitVec.getLsbD_shiftLeft, BitVec.getLsbD_sshiftRight]
  by_cases h : i = 0
  · subst h
    simp [hi, BitVec.msb_eq_getLsbD_last]
    intros
    omega
  · have h3 : ¬w ≤ i := by omega
    have h4 : ¬w - 1 + i < w := by omega
    simp [h, hi, h3, h4]

theorem and_one_eq {w : Nat} (u : BitVec w) (hw : 0 < w) : u &&& 1 = if u.getLsbD 0 then 1 else 0 := by
  apply BitVec.eq_of_getLsbD_eq
  intro j hj
  rw [BitVec.getLsbD_and]
  by_cases h0 : j = 0
  · subst h0; cases u.getLsbD 0 <;> simp [hw]
  · cases u.getLsbD 0 <;> simp [h0]

/-- Bit `i` of the decoded number is bit `i + 1` of the code, flipped where the code is odd. -/
theorem zigzagDec_getLsbD {w : Nat} (u : BitVec w) {i : Nat} (hi : i < w) :
    (zigzagDec u).getLsbD i = (u.getLsbD (i + 1) ^^ u.getLsbD 0) := by
  have hn : (-(u &&& 1)).getLsbD i = u.getLsbD 0 := by
    rw [and_one_eq u (by omega)]
    cases u.getLsbD 0
    · simp
    · have : -(1 : BitVec w) = BitVec.allOnes w := BitVec.neg_one_eq_allOnes
      simp only [if_true]
      rw [this]
      simp [hi]
  rw [zigzagDec, BitVec.getLsbD_xor, hn, BitVec.getLsbD_ushiftRight, Nat.add_comm]

end Sys2Proof.Machine
end

