-- ==== Sys2Proof/Tests/Slice0.lean ====
section
/-! SUPPORT. The model's own tests: words the spec writes out, one step of each command on a small state with the result the
spec's rules or vectors give, and for every obligation with hypotheses a state and operands that meet them together. -/

namespace Sys2Proof.Tests

open Sys2Proof.Machine

/-! ## Small states -/

/-- The block right after reset with 16 bytes of storage (the size of the spec's vectors, R6) and quiet ports. -/
def fresh : State := State.reset

/-- A writer with a capacity, a position and a storage. -/
def writer (capacity cursor : Pos) (m : Memory) : State :=
  { fresh with bwCapacityBits := capacity, bwCursorBits := cursor, bwHighWaterBits := cursor, bwMem := m }

/-- A reader with a length, a position and a storage. -/
def reader (length cursor : Pos) (m : Memory) : State :=
  { fresh with brLengthBits := length, brCursorBits := cursor, brMem := m }

/-- The reference source over some bytes (R29). -/
def fed (bs : List Byte) : State := { fresh with source := ⟨bs.map .byte, some .endOfStream, 0⟩ }

/-- A source that gives some bytes and then something else for ever. -/
def fedThen (bs : List Byte) (after : Option SrcAnswer) : State := { fresh with source := ⟨bs.map .byte, after, 0⟩ }

/-- A sink that accepts some bytes and then answers something else for ever. -/
def sinkThen (accepts : Nat) (after : Option SinkAnswer) : State :=
  { fresh with sink := ⟨List.replicate accepts .ok, after, []⟩ }

/-- The host presents these actions. -/
def presented (es : List HostEvent) (s : State) : State := { s with pending := es }

/-- The state an outcome gives, if it gives one. -/
def stateOf : Out → Option State
  | .next t => some t
  | _ => none

/-- The last response of an outcome's state. -/
def answer (o : Out) : Option Response := (stateOf o).bind fun t => t.responses.getLast?

/-- What an outcome's sink has accepted. -/
def accepted (o : Out) : Option (List Byte) := (stateOf o).map fun t => t.sink.accepted

/-- How many bytes an outcome's source has given. -/
def taken (o : Out) : Option Nat := (stateOf o).map fun t => t.source.taken

/-- The bytes of the writer's storage at the addresses below `k`. -/
def written (k : Nat) (o : Out) : Option (List (Option Byte)) :=
  (stateOf o).map fun t => (List.range k).map t.bwMem.read

/-- Why an outcome is a fault. -/
def faultOf : Out → Option Fault
  | .fault f => some f
  | _ => none

/-- Why an outcome is a refusal. -/
def refusalOf : Out → Option Refusal
  | .refused r => some r
  | _ => none

/-! ## Words written out from the spec's encodings (R39, R42 and the examples of 41 to 45) -/

/-- R39, bit by bit: op 0x02, n = 5, data = 26 (R60). -/
theorem test_wrbits32_bits :
    decode (0b00000010#8 ++ 0b00000101#8 ++
      0b0000000000000000000000000000000000000000000000000000000000011010#64) = .instr (.wrbits32 5 26) := by decide

/-- R39, bit by bit: op 0x14, n = 0xD5, data = 0 (R67). -/
theorem test_brldb_bits :
    decode (0b00010100#8 ++ 0b11010101#8 ++
      0b0000000000000000000000000000000000000000000000000000000000000000#64) = .instr (.brldb 0 0xD5) := by decide

/-- R39, bit by bit: op 0x22, data = 3 (R75). -/
theorem test_zzdec32_bits :
    decode (0b00100010#8 ++ 0b00000000#8 ++
      0b0000000000000000000000000000000000000000000000000000000000000011#64) = .instr (.zzdec32 3) := by decide

/-- R39, bit by bit: op 0x30, data = 300 (R83). -/
theorem test_wruv32_bits :
    decode (0b00110000#8 ++ 0b00000000#8 ++
      0b0000000000000000000000000000000000000000000000000000000100101100#64) = .instr (.wruv32 300) := by decide

/-- R39, bit by bit: op 0x43 (R92). -/
theorem test_rdsv64_bits :
    decode (0b01000011#8 ++ 0b00000000#8 ++
      0b0000000000000000000000000000000000000000000000000000000000000000#64) = .instr .rdsv64 := by decide

/-- The examples of R59 to R63. -/
theorem test_words_bw :
    decode 0x00000000000000000001 = .instr (.bwnew 1) ∧ decode 0x01000000000000000000 = .instr .bwfin ∧
    decode 0x02030000000000000005 = .instr (.wrbits32 3 0b101) ∧
    decode 0x03400123456789ABCDEF = .instr (.wrbits64 64 0x0123456789ABCDEF) ∧
    decode 0x04000000000000000000 = .instr (.bwrdb 0) := by decide

/-- The examples of R66 to R70. -/
theorem test_words_br :
    decode 0x10000000000000000008 = .instr (.brnew 8) ∧ decode 0x11000000000000000007 = .instr (.brseek 7) ∧
    decode 0x12030000000000000000 = .instr (.rdbits32 3) ∧ decode 0x13400000000000000000 = .instr (.rdbits64 64) ∧
    decode 0x14D50000000000000000 = .instr (.brldb 0 0xD5) := by decide

/-- The examples of R73 to R76. -/
theorem test_words_zz :
    decode 0x200000000000FFFFFFFF = .instr (.zzenc32 0xFFFFFFFF) ∧
    decode 0x2100FFFFFFFFFFFFFFFE = .instr (.zzenc64 0xFFFFFFFFFFFFFFFE) ∧
    decode 0x22000000000000000003 = .instr (.zzdec32 3) ∧ decode 0x23000000000000000004 = .instr (.zzdec64 4) := by
  decide

/-- The examples of R83 to R86. -/
theorem test_words_ve :
    decode 0x3000000000000000012C = .instr (.wruv32 300) ∧ decode 0x31000000000100000000 = .instr (.wruv64 0x100000000) ∧
    decode 0x320000000000FFFFFFFF = .instr (.wrsv32 0xFFFFFFFF) ∧
    decode 0x3300FFFFFFFFFFFFFFFE = .instr (.wrsv64 0xFFFFFFFFFFFFFFFE) := by decide

/-- The examples of R89 to R92, and a word whose unused fields are all ones (R44). -/
theorem test_words_vd :
    decode 0x40000000000000000000 = .instr .rduv32 ∧ decode 0x41000000000000000000 = .instr .rduv64 ∧
    decode 0x42000000000000000000 = .instr .rdsv32 ∧ decode 0x43000000000000000000 = .instr .rdsv64 ∧
    decode 0x40FFFFFFFFFFFFFFFFFF = .instr .rduv32 := by decide

/-- R43: both ends of every illegal range. -/
theorem test_words_illegal :
    [0x05, 0x0F, 0x15, 0x1F, 0x24, 0x2F, 0x34, 0x3F, 0x44, 0xFF].all
      (fun op => decode (cmdWord op 0 0) == .illegal op) = true := by decide

/-! ## WellFormed: a good word, and an ill-formed one for each check -/

theorem test_wellformed_good : wellFormedWord 0x0205000000000000001A = true := by decide

/-- `opIsLegal` refuses op 0x05, and no other check does. -/
theorem test_wellformed_op :
    opIsLegal 0x05000000000000000000 = false ∧ unusedNIsZero 0x05000000000000000000 = true ∧
    unusedDataIsZero 0x05000000000000000000 = true ∧ wellFormedWord 0x05000000000000000000 = false := by decide

/-- `unusedNIsZero` refuses BWNEW with a field `n` that is not 0, and no other check does. -/
theorem test_wellformed_n :
    unusedNIsZero 0x00010000000000000001 = false ∧ opIsLegal 0x00010000000000000001 = true ∧
    unusedDataIsZero 0x00010000000000000001 = true ∧ wellFormedWord 0x00010000000000000001 = false := by decide

/-- `unusedDataIsZero` refuses ZZENC32 with a bit above `data[31:0]`, and no other check does. -/
theorem test_wellformed_data :
    unusedDataIsZero 0x20000000000100000000 = false ∧ opIsLegal 0x20000000000100000000 = true ∧
    unusedNIsZero 0x20000000000100000000 = true ∧ wellFormedWord 0x20000000000100000000 = false := by decide

/-! ## BitWriter -/

/-- R59: a capacity of exactly STORAGE_BYTES is legal. -/
theorem test_bwnew_full :
    (stateOf (exec (.bwnew 16) (writer 8 8 [(0, 0xD5)]))).map
      (fun t => (t.bwCapacityBits, t.bwCursorBits, t.bwHighWaterBits, t.bwMem)) = some (128, 0, 0, []) := by decide

/-- R59, R40: one byte too many, and a capacity that would wrap in 32 bits. -/
theorem test_bwnew_overflow :
    answer (exec (.bwnew 17) fresh) = some ⟨.error .overflow, 0, 0⟩ ∧
    answer (exec (.bwnew 0x100000000) fresh) = some ⟨.error .overflow, 0, 0⟩ := by decide

/-- R62: 0 bits, 8 bits and 9 bits. -/
theorem test_bwfin_rounds_up :
    answer (exec .bwfin (writer 128 0 [])) = some ⟨.ok, 0, 0⟩ ∧
    answer (exec .bwfin (writer 128 8 [])) = some ⟨.ok, 0, 1⟩ ∧
    answer (exec .bwfin (writer 128 9 [])) = some ⟨.ok, 0, 2⟩ := by decide

/-- Scenario 4 (R60): 5 bits of 0b11010 after 3 bits of 0b101 make 0xD5, up to exactly the capacity. -/
theorem test_wrbits32_scenario4 :
    written 1 (exec (.wrbits32 5 0b11010) (writer 8 3 [(0, 0b101)])) = some [some 0xD5] ∧
    (stateOf (exec (.wrbits32 5 0b11010) (writer 8 3 [(0, 0b101)]))).map (·.bwCursorBits) = some 8 := by decide

/-- R60: 33 bits, and one bit past the capacity, are Overflow, and a zero-length write at the capacity is not. -/
theorem test_wrbits32_bounds :
    answer (exec (.wrbits32 33 0) (writer 128 0 [])) = some ⟨.error .overflow, 0, 0⟩ ∧
    answer (exec (.wrbits32 1 0) (writer 8 8 [(0, 0)])) = some ⟨.error .overflow, 0, 0⟩ ∧
    answer (exec (.wrbits32 0 0) (writer 8 8 [(0, 0)])) = some ⟨.ok, 0, 0⟩ := by decide

/-- The example of R61: 64 bits at offset 7 touch nine bytes. -/
theorem test_wrbits64_nine_bytes :
    written 8 (exec (.wrbits64 64 0x0123456789ABCDEF) (writer 72 7 [(0, 0x7F)])) =
      some [some 0xFF, some 0xF7, some 0xE6, some 0xD5, some 0xC4, some 0xB3, some 0xA2, some 0x91] := by decide

/-- R61: 65 bits are Overflow; 64 bits are, where 63 are left. -/
theorem test_wrbits64_bounds :
    answer (exec (.wrbits64 65 0) (writer 128 0 [])) = some ⟨.error .overflow, 0, 0⟩ ∧
    answer (exec (.wrbits64 64 0) (writer 64 1 [(0, 0)])) = some ⟨.error .overflow, 0, 0⟩ := by decide

/-- The example of R63: the last byte of the prefix, and the address after it. -/
theorem test_bwrdb_prefix :
    answer (exec (.bwrdb 0) (writer 8 8 [(0, 0xD5)])) = some ⟨.ok, 0, 0xD5⟩ ∧
    answer (exec (.bwrdb 1) (writer 8 8 [(0, 0xD5)])) = some ⟨.error .overflow, 0, 0⟩ := by decide

/-- R63, U1: reading a byte with pad bits takes a new draw; a whole byte takes none. -/
theorem test_bwrdb_draws :
    (stateOf (exec (.bwrdb 0) (writer 8 3 [(0, 0b101)]))).map (·.draws) = some (fresh.draws + 1) ∧
    (stateOf (exec (.bwrdb 0) (writer 8 8 [(0, 0xD5)]))).map (·.draws) = some fresh.draws := by decide

/-! ## BitReader -/

/-- R66: a length of exactly 8 * STORAGE_BYTES is legal, one more is not, and `BRMem` is kept. -/
theorem test_brnew_bounds :
    (stateOf (exec (.brnew 128) (reader 8 5 [(0, 0xD5)]))).map
      (fun t => (t.brLengthBits, t.brCursorBits, t.brMem)) = some (128, 0, [(0, 0xD5)]) ∧
    answer (exec (.brnew 129) fresh) = some ⟨.error .overflow, 0, 0⟩ := by decide

/-- The example of R70: 72 of 72 is legal, 73 is not. -/
theorem test_brseek_bounds :
    (stateOf (exec (.brseek 72) (reader 72 0 []))).map (·.brCursorBits) = some 72 ∧
    answer (exec (.brseek 73) (reader 72 72 [])) = some ⟨.error .overflow, 0, 0⟩ := by decide

/-- Scenario 4 (R68): 3 bits, then 5 bits, of 0xD5. -/
theorem test_rdbits32_scenario4 :
    answer (exec (.rdbits32 3) (reader 8 0 [(0, 0xD5)])) = some ⟨.ok, 0, 0x5⟩ ∧
    answer (exec (.rdbits32 5) (reader 8 3 [(0, 0xD5)])) = some ⟨.ok, 0, 0x1A⟩ := by decide

/-- R68, R105 (c): past the length is Eof, but a width above 32 is Overflow first. -/
theorem test_rdbits32_errors :
    answer (exec (.rdbits32 1) (reader 8 8 [(0, 0xD5)])) = some ⟨.error .eof, 0, 0⟩ ∧
    answer (exec (.rdbits32 33) (reader 8 8 [(0, 0xD5)])) = some ⟨.error .overflow, 0, 0⟩ ∧
    answer (exec (.rdbits32 0) (reader 8 8 [(0, 0xD5)])) = some ⟨.ok, 0, 0⟩ := by decide

/-- The example of R69: 64 bits at offset 7. -/
theorem test_rdbits64_nine_bytes :
    answer (exec (.rdbits64 64) (reader 72 7 [(0, 0xFF), (1, 0xF7), (2, 0xE6), (3, 0xD5), (4, 0xC4), (5, 0xB3),
      (6, 0xA2), (7, 0x91), (8, 0x80)])) = some ⟨.ok, 0, 0x0123456789ABCDEF⟩ := by decide

theorem test_rdbits64_errors :
    answer (exec (.rdbits64 64) (reader 72 9 [])) = some ⟨.error .eof, 0, 0⟩ ∧
    answer (exec (.rdbits64 65) (reader 72 9 [])) = some ⟨.error .overflow, 0, 0⟩ := by decide

/-- The example of R67, over an older byte, and the two sides of the last address. -/
theorem test_brldb_bounds :
    (stateOf (exec (.brldb 0 0xD5) (reader 8 4 [(0, 0x11), (3, 0x22)]))).map
      (fun t => (t.brMem, t.brLengthBits, t.brCursorBits)) = some ([(0, 0xD5), (3, 0x22)], 8, 4) ∧
    (stateOf (exec (.brldb 15 0xD5) fresh)).map (·.brMem) = some [(15, 0xD5)] ∧
    answer (exec (.brldb 16 0xD5) fresh) = some ⟨.error .overflow, 0, 0⟩ := by decide

/-! ## Zigzag -/

/-- The corner cases of R73. -/
theorem test_zzenc32 :
    answer (exec (.zzenc32 0xFFFFFFFF) fresh) = some ⟨.ok, 0, 1⟩ ∧
    answer (exec (.zzenc32 0x7FFFFFFF) fresh) = some ⟨.ok, 0, 0xFFFFFFFE⟩ ∧
    answer (exec (.zzenc32 0x80000000) fresh) = some ⟨.ok, 0, 0xFFFFFFFF⟩ := by decide

/-- The corner cases of R74: a 32-bit pattern is a positive number here. -/
theorem test_zzenc64 :
    answer (exec (.zzenc64 0x00000000FFFFFFFF) fresh) = some ⟨.ok, 0, 0x00000001FFFFFFFE⟩ ∧
    answer (exec (.zzenc64 0xFFFFFFFFFFFFFFFE) fresh) = some ⟨.ok, 0, 3⟩ ∧
    answer (exec (.zzenc64 0x8000000000000000) fresh) = some ⟨.ok, 0, 0xFFFFFFFFFFFFFFFF⟩ := by decide

/-- The corner cases of R75: the upper half of the result is 0 although the value is negative. -/
theorem test_zzdec32 :
    answer (exec (.zzdec32 3) fresh) = some ⟨.ok, 0, 0xFFFFFFFE⟩ ∧
    answer (exec (.zzdec32 0xFFFFFFFF) fresh) = some ⟨.ok, 0, 0x80000000⟩ := by decide

/-- The corner cases of R76. -/
theorem test_zzdec64 :
    answer (exec (.zzdec64 4) fresh) = some ⟨.ok, 0, 2⟩ ∧
    answer (exec (.zzdec64 0xFFFFFFFFFFFFFFFF) fresh) = some ⟨.ok, 0, 0x8000000000000000⟩ := by decide

/-! ## Varint encode -/

/-- Scenario 1 (R83). -/
theorem test_wruv32_300 :
    answer (exec (.wruv32 300) fresh) = some ⟨.ok, 2, 0⟩ ∧ accepted (exec (.wruv32 300) fresh) = some [0xAC, 0x02] := by
  decide

/-- R81: the sink refuses the second byte; the first stays accepted. -/
theorem test_wruv32_io :
    answer (exec (.wruv32 300) (sinkThen 1 (some .fail))) = some ⟨.error .io, 0, 0⟩ ∧
    accepted (exec (.wruv32 300) (sinkThen 1 (some .fail))) = some [0xAC] := by decide

/-- The example of R84, and the longest encoding. -/
theorem test_wruv64 :
    accepted (exec (.wruv64 0x100000000) fresh) = some [0x80, 0x80, 0x80, 0x80, 0x10] ∧
    accepted (exec (.wruv64 0xFFFFFFFFFFFFFFFF) fresh) =
      some [0xFF, 0xFF, 0xFF, 0xFF, 0xFF, 0xFF, 0xFF, 0xFF, 0xFF, 0x01] := by decide

/-- The corner cases of R85. -/
theorem test_wrsv32 :
    accepted (exec (.wrsv32 0xFFFFFFFF) fresh) = some [0x01] ∧ accepted (exec (.wrsv32 64) fresh) = some [0x80, 0x01] ∧
    accepted (exec (.wrsv32 0x80000000) fresh) = some [0xFF, 0xFF, 0xFF, 0xFF, 0x0F] := by decide

/-- The corner cases of R86. -/
theorem test_wrsv64 :
    accepted (exec (.wrsv64 0xFFFFFFFFFFFFFFFE) fresh) = some [0x03] ∧
    accepted (exec (.wrsv64 0x7FFFFFFFFFFFFFFF) fresh) =
      some [0xFE, 0xFF, 0xFF, 0xFF, 0xFF, 0xFF, 0xFF, 0xFF, 0xFF, 0x01] ∧
    faultOf (exec (.wrsv64 0) (sinkThen 0 none)) = some .sinkNeverAnswers := by decide

/-! ## Varint decode -/

/-- R89, R94: excess payload of the fifth byte is lost, and a varint need not be minimal. -/
theorem test_rduv32_values :
    answer (exec .rduv32 (fed [0xFF, 0xFF, 0xFF, 0xFF, 0x7F])) = some ⟨.ok, 5, 0xFFFFFFFF⟩ ∧
    answer (exec .rduv32 (fed [0x80, 0x80, 0x80, 0x80, 0x10])) = some ⟨.ok, 5, 0⟩ ∧
    answer (exec .rduv32 (fed [0xAC, 0x82, 0x00])) = some ⟨.ok, 3, 300⟩ := by decide

/-- Scenarios 5 and 6 (R89): six flagged bytes, and five flagged bytes and the end. -/
theorem test_rduv32_errors :
    answer (exec .rduv32 (fed [0x80, 0x80, 0x80, 0x80, 0x80, 0x80])) = some ⟨.error .malformedVarint, 0, 0⟩ ∧
    taken (exec .rduv32 (fed [0x80, 0x80, 0x80, 0x80, 0x80, 0x80])) = some 6 ∧
    answer (exec .rduv32 (fed [0x80, 0x80, 0x80, 0x80, 0x80])) = some ⟨.error .unexpectedEof, 0, 0⟩ := by decide

/-- The example of R90: the byte after the terminal one is not consumed; and the tenth byte's excess is lost. -/
theorem test_rduv64_values :
    answer (exec .rduv64 (fed [0xAC, 0x02, 0xFF])) = some ⟨.ok, 2, 0x12C⟩ ∧
    taken (exec .rduv64 (fed [0xAC, 0x02, 0xFF])) = some 2 ∧
    answer (exec .rduv64 (fed [0xFF, 0xFF, 0xFF, 0xFF, 0xFF, 0xFF, 0xFF, 0xFF, 0xFF, 0x7F])) =
      some ⟨.ok, 10, 0xFFFFFFFFFFFFFFFF⟩ := by decide

/-- R90, R93: ten flagged bytes and the end. -/
theorem test_rduv64_eof :
    answer (exec .rduv64 (fed (List.replicate 10 0x80))) = some ⟨.error .unexpectedEof, 0, 0⟩ ∧
    taken (exec .rduv64 (fed (List.replicate 10 0x80))) = some 10 := by decide

/-- Scenarios 2 and 3 (R91, R95): the result is not sign-extended. -/
theorem test_rdsv32 :
    answer (exec .rdsv32 (fed [0x01])) = some ⟨.ok, 1, 0xFFFFFFFF⟩ ∧
    answer (exec .rdsv32 (fed [0xFF, 0xFF, 0xFF, 0xFF, 0x0F])) = some ⟨.ok, 5, 0x80000000⟩ ∧
    answer (exec .rdsv32 (fedThen [0x80] (some .fail))) = some ⟨.error .io, 0, 0⟩ := by decide

/-- The example of R92, and a call that is never answered (R119). -/
theorem test_rdsv64 :
    answer (exec .rdsv64 (fed [0x03])) = some ⟨.ok, 1, 0xFFFFFFFFFFFFFFFE⟩ ∧
    answer (exec .rdsv64 (fed [0xFF, 0xFF, 0xFF, 0xFF, 0x0F])) = some ⟨.ok, 5, 0xFFFFFFFF80000000⟩ ∧
    faultOf (exec .rdsv64 (fedThen [0x80] none)) = some .sourceNeverAnswers := by decide

/-! ## Steps and the host's two questions -/

/-- R104: an illegal word completes with Illegal; R112: reset; R113, U9: what is refused. -/
theorem test_step_host :
    answer (step (presented [.command 0x05000000000000000000] fresh)) = some ⟨.error .illegal, 0, 0⟩ ∧
    (stateOf (step (presented [.reset] (writer 8 8 [(0, 0xD5)])))).map (fun t => (t.bwCapacityBits, t.bwMem)) =
      some (0, []) ∧
    refusalOf (step (presented [.resetDuringCommand 0] fresh)) = some .resetDuringCommand ∧
    refusalOf (step (presented [.twoCommands 0 0] fresh)) = some .concurrentCommands := by decide

theorem test_table_word :
    decodeTableWord 80 0x0205000000000000001A = some (.wrbits32 5 26) ∧ decodeTableWord 80 0x05000000000000000000 = none ∧
    answer (step (fresh.withFetchWord 80 0x200000000000FFFFFFFF)) = some ⟨.ok, 0, 1⟩ := by decide

/-! ## Witnesses: the hypotheses of every obligation that has some, met together -/

theorem witness_WellFormedWordRoundTrip : wellFormedWord 0x320000000000FFFFFFFF = true := by decide

/-- Every range of the listed opcodes at both its ends, and one presented. -/
theorem witness_IllegalOpcodeCompletes :
    ([0x05, 0x0F, 0x15, 0x1F, 0x24, 0x2F, 0x34, 0x3F, 0x44, 0xFF].all fun op : Byte =>
      decide ((0x05 ≤ op.toNat ∧ op.toNat ≤ 0x0F) ∨ (0x15 ≤ op.toNat ∧ op.toNat ≤ 0x1F) ∨
        (0x24 ≤ op.toNat ∧ op.toNat ≤ 0x2F) ∨ (0x34 ≤ op.toNat ∧ op.toNat ≤ 0x3F) ∨ 0x44 ≤ op.toNat)) = true ∧
    (presented [.command 0x05000000000000000000] fresh).pending = [.command 0x05000000000000000000] := by decide

theorem witness_UnusedFieldsIgnored :
    opField 0x40000000000000000000 = opField 0x40FFFFFFFFFFFFFFFFFF ∧
    ∀ r, fieldUse (opField 0x40000000000000000000) = some r →
      (r.usesN = true → nField 0x40000000000000000000 = nField 0x40FFFFFFFFFFFFFFFFFF) ∧
      (dataField 0x40000000000000000000).toNat % 2 ^ r.dataBits =
        (dataField 0x40FFFFFFFFFFFFFFFFFF).toNat % 2 ^ r.dataBits := by
  have h : fieldUse (opField 0x40000000000000000000) = some ⟨0x40, false, 0⟩ := by decide
  refine ⟨by decide, fun r hr => ?_⟩
  rw [h] at hr
  cases hr
  decide

/-- The command word of scenario 1, presented. -/
def presentedWruv : State := presented [.command 0x3000000000000000012C] fresh

theorem witness_StepRunsPresentedCommand :
    presentedWruv.pending = [.command 0x3000000000000000012C] ∧ decode 0x3000000000000000012C = .instr (.wruv32 300) := by
  decide

theorem witness_NothingPresentedNothingChanges : fresh.pending = [] := by decide

theorem witness_HostMisuseRefused :
    (presented [.resetDuringCommand 0] fresh).pending = [.resetDuringCommand 0] ∧
    (presented [.twoCommands 0 1] fresh).pending = [.twoCommands 0 1] := by decide

/-- A writer in use, about to be reset. -/
theorem witness_ResetEventClearsBlock : (presented [.reset] (writer 8 8 [(0, 0xD5)])).pending = [.reset] := by decide

/-- Both clauses: a reset, and a BRLDB that leaves address 1 unloaded. -/
theorem witness_UnloadedReaderBytesAreFixed :
    (∃ t, step (presented [.reset] fresh) = .next t) ∧
    ∃ t, step (presented [.command 0x14D50000000000000000] fresh) = .next t ∧
      (∀ es, (presented [.command 0x14D50000000000000000] fresh).pending ≠ .reset :: es) ∧ t.brMem.read 1 = none :=
  ⟨⟨_, rfl⟩, _, rfl, (by intro es h; cases h), rfl⟩

theorem witness_AttachTouchesOnlyThePort :
    (presented [.attachSource [.byte 1] none] fresh).pending = [.attachSource [.byte 1] none] ∧
    (presented [.attachSink [.fail] none] fresh).pending = [.attachSink [.fail] none] := by decide

/-- The smallest and the largest storage (R6). -/
theorem witness_ResetMeetsInvariant :
    1 ≤ 1 ∧ 1 ≤ Config.maxStorageBytes ∧ 1 ≤ 2 ^ 28 ∧ 2 ^ 28 ≤ Config.maxStorageBytes := by decide

/-- A writer in the middle of a session with a write presented, which step completes. -/
def writing : State := presented [.command 0x0205000000000000001A] (writer 8 3 [(0, 0b101)])

theorem witness_WriterInvariantKept : WriterInv writing ∧ ∃ t, step writing = .next t :=
  ⟨by unfold WriterInv; decide, _, rfl⟩

/-- A reader in the middle of a session with a read presented, which step completes. -/
def reading : State := presented [.command 0x12050000000000000000] (reader 8 3 [(0, 0xD5)])

theorem witness_ReaderInvariantKept : ReaderInv reading ∧ ∃ t, step reading = .next t :=
  ⟨by unfold ReaderInv; decide, _, rfl⟩

theorem sizeLegal_fresh : SizeLegal fresh := by unfold SizeLegal; decide

theorem machineInv_fresh (es : List HostEvent) : MachineInv (presented es fresh) := by
  refine ⟨sizeLegal_fresh, ?_, rfl, ?_, ⟨List.Pairwise.nil, ?_, ?_⟩, ⟨List.Pairwise.nil, ?_⟩, ?_⟩
  · exact ⟨Nat.le_refl 0, Nat.zero_le _, Nat.le_refl 0, rfl⟩
  · exact ⟨Nat.le_refl 0, Nat.zero_le _⟩
  · intro a
    have h0 : (presented es fresh).bwPrefixBytes = 0 := (by decide : fresh.bwPrefixBytes = 0)
    rw [h0]
    exact ⟨fun h => Bool.noConfusion (h : false = true), fun h => absurd h (Nat.not_lt_zero a)⟩
  · intro p _ h; cases h
  · intro c hc; cases hc
  · show 0 < 1; decide

theorem witness_StepKeepsInvariant : MachineInv presentedWruv ∧ ∃ t, step presentedWruv = .next t :=
  ⟨machineInv_fresh _, _, rfl⟩

theorem witness_EveryPresentedCommandCompletes :
    MachineInv presentedWruv ∧ PortsAnswer presentedWruv ∧ presentedWruv.pending = [.command 0x3000000000000000012C] :=
  ⟨machineInv_fresh _, by unfold PortsAnswer; decide, rfl⟩

theorem witness_OneResponsePerCommand :
    (∃ t, exec (.bwnew 1) fresh = .next t) ∧ unitOf (.bwnew 1) ≠ .ve ∧ unitOf (.bwnew 1) ≠ .vd :=
  ⟨⟨_, rfl⟩, by decide⟩

/-- A BWNEW that fails: presented, completed, answered Overflow; and it is of neither varint unit. -/
theorem witness_FailureLeavesBlockUnchanged :
    ∃ s t r, s.pending = [.command 0x00000000000000000011] ∧ step s = .next t ∧ Answered s t r ∧ r.status ≠ .ok ∧
      ∀ i, decode 0x00000000000000000011 = .instr i → unitOf i ≠ .ve ∧ unitOf i ≠ .vd := by
  refine ⟨presented [.command 0x00000000000000000011] fresh, _, ⟨.error .overflow, 0, 0⟩, rfl, rfl, rfl, by decide, ?_⟩
  intro i h
  have : i = .bwnew 0x11 := by
    have h' : decode 0x00000000000000000011 = .instr (.bwnew 0x11) := by decide
    rw [h'] at h
    injection h with h
    exact h.symm
  subst this
  decide

/-- BWFIN meets the premise of every clause at once. -/
theorem witness_StateWrittenOnlyByItsCommands :
    (∃ t, exec .bwfin fresh = .next t) ∧ (∀ c, Instr.bwfin ≠ .bwnew c) ∧ (∀ n v, Instr.bwfin ≠ .wrbits32 n v) ∧
    (∀ n v, Instr.bwfin ≠ .wrbits64 n v) ∧ (∀ l, Instr.bwfin ≠ .brnew l) ∧ (∀ p, Instr.bwfin ≠ .brseek p) ∧
    (∀ n, Instr.bwfin ≠ .rdbits32 n) ∧ (∀ n, Instr.bwfin ≠ .rdbits64 n) ∧ (∀ a b, Instr.bwfin ≠ .brldb a b) ∧
    (∀ a, Instr.bwfin ≠ .bwrdb a) ∧ unitOf .bwfin ≠ .vd ∧ unitOf .bwfin ≠ .ve :=
  ⟨⟨_, rfl⟩, nofun, nofun, nofun, nofun, nofun, nofun, nofun, nofun, nofun, by decide, by decide⟩

theorem witness_UnitsAreIndependent : unitOf (.wrbits32 3 5) = .bw ∧ unitOf (.rdbits32 3) = .br := by decide

/-- Two writers with three bits written that differ in the pad bits. -/
theorem witness_UnspecifiedBitsNeverLeak :
    WriterInv (writer 8 3 [(0, 0x05)]) ∧ SameSpecified (writer 8 3 [(0, 0x05)]) (writer 8 3 [(0, 0xFD)]) := by
  refine ⟨by unfold WriterInv; decide, rfl, ?_⟩
  show ∀ p < 3, Memory.bitAt [(0, 0xFD)] p = Memory.bitAt [(0, 0x05)] p
  decide

theorem witness_BitWriteChangesOneBit :
    (4 : Nat) ≠ 3 ∧ Memory.bitAt [(0, 0x05)] 4 = some false ∧ (1 : Nat) ≠ 3 / 8 := by decide

/-- A bit offset of 7, and the widest field. -/
theorem witness_BytewiseFormsAgree : 7 < 8 ∧ 64 ≤ 64 := by decide

/-- A capacity of 17 bytes in 16, and of 16. -/
theorem witness_BwnewResult :
    SizeLegal fresh ∧ fresh.storageBytes < (17 : Data).toNat ∧ (16 : Data).toNat ≤ fresh.storageBytes :=
  ⟨sizeLegal_fresh, by decide, by decide⟩

/-- 33 bits; 6 bits where 5 are left; 5 bits where 5 are left; 32 bits where 32 are left. -/
theorem witness_Wrbits32Result :
    32 < (33 : Byte).toNat ∧ (writer 8 3 []).bwCapacityBits.toNat < (writer 8 3 []).bwCursorBits.toNat + (6 : Byte).toNat ∧
    ((5 : Byte).toNat ≤ 32 ∧ (writer 8 3 []).bwCursorBits.toNat + (5 : Byte).toNat ≤ (writer 8 3 []).bwCapacityBits.toNat ∧
      (writer 8 3 []).bwCapacityBits.toNat ≤ 8 * (writer 8 3 []).storageBytes) ∧
    (32 : Byte).toNat ≤ 32 ∧
      (writer 128 96 []).bwCursorBits.toNat + (32 : Byte).toNat ≤ (writer 128 96 []).bwCapacityBits.toNat ∧
      (writer 128 96 []).bwCapacityBits.toNat ≤ 8 * (writer 128 96 []).storageBytes := by decide

/-- 65 bits; 64 bits where 63 are left; 64 bits where 64 are left; and a width for the clause on WRBITS32. -/
theorem witness_Wrbits64Result :
    64 < (65 : Byte).toNat ∧
    (writer 64 1 []).bwCapacityBits.toNat < (writer 64 1 []).bwCursorBits.toNat + (64 : Byte).toNat ∧
    ((64 : Byte).toNat ≤ 64 ∧
      (writer 72 8 []).bwCursorBits.toNat + (64 : Byte).toNat ≤ (writer 72 8 []).bwCapacityBits.toNat ∧
      (writer 72 8 []).bwCapacityBits.toNat ≤ 8 * (writer 72 8 []).storageBytes) ∧ (32 : Byte).toNat ≤ 32 := by decide

/-- Nine bits written: address 2 is outside the prefix, address 1 inside; bit 8 is specified, bit 9 is a pad bit; byte 0 has
no pad bits, nor has it where exactly eight bits are written. -/
theorem witness_BwrdbResult :
    let s := writer 16 9 [(0, 0xFF), (1, 0x01)]
    (s.bwHighWaterBits.toNat + 7) / 8 ≤ (2 : Data).toNat ∧ (1 : Data).toNat < (s.bwHighWaterBits.toNat + 7) / 8 ∧
    s.bwHighWaterBits.toNat ≤ 8 * s.storageBytes ∧ 8 * (1 : Data).toNat + 0 < s.bwHighWaterBits.toNat ∧
    s.bwMem.bitAt (8 * (1 : Data).toNat + 0) = some true ∧ s.bwHighWaterBits.toNat ≤ 8 * (1 : Data).toNat + 1 ∧
    8 * (0 : Data).toNat + 8 ≤ s.bwHighWaterBits.toNat ∧
    8 * (0 : Data).toNat + 8 ≤ (writer 8 8 [(0, 0xFF)]).bwHighWaterBits.toNat := by
  decide

/-- Two fields that fill a capacity of 72 bits, presented one after the other. -/
def twoFields : List (Byte × BitVec 64) := [(7, 0x7F), (64, 0x0123456789ABCDEF)]

def writingTwo : State := presented (presentWrites twoFields) (writer 72 0 [])

theorem witness_WritesPackBackToBack :
    WriterInv writingTwo ∧ (∀ f ∈ twoFields, f.1.toNat ≤ 64) ∧
    writingTwo.bwCursorBits.toNat + totalBits twoFields ≤ writingTwo.bwCapacityBits.toNat ∧
    writingTwo.pending = presentWrites twoFields :=
  ⟨by unfold WriterInv; decide, List.forall_mem_cons.2 ⟨by decide, List.forall_mem_singleton.2 (by decide)⟩, by decide, rfl⟩

/-- A length of 129 bits in 128, and of 128. -/
theorem witness_BrnewResult :
    SizeLegal fresh ∧ 8 * fresh.storageBytes < (129 : Data).toNat ∧ (128 : Data).toNat ≤ 8 * fresh.storageBytes :=
  ⟨sizeLegal_fresh, by decide, by decide⟩

theorem witness_BrseekResult :
    (reader 72 0 []).brLengthBits.toNat < (73 : Data).toNat ∧ (72 : Data).toNat ≤ (reader 72 0 []).brLengthBits.toNat := by
  decide

/-- 33 bits; 6 bits where 5 are left; 5 where 5 are left. -/
theorem witness_Rdbits32Result :
    32 < (33 : Byte).toNat ∧ (6 : Byte).toNat ≤ 32 ∧
    (reader 8 3 []).brLengthBits.toNat < (reader 8 3 []).brCursorBits.toNat + (6 : Byte).toNat ∧
    (reader 8 3 []).brCursorBits.toNat + (5 : Byte).toNat ≤ (reader 8 3 []).brLengthBits.toNat ∧
    (reader 8 3 []).brLengthBits.toNat ≤ 8 * (reader 8 3 []).storageBytes := by decide

/-- 65 bits; 64 bits where 63 are left; 64 where 64 are left; a width for the clause on RDBITS32. -/
theorem witness_Rdbits64Result :
    64 < (65 : Byte).toNat ∧ (64 : Byte).toNat ≤ 64 ∧
    (reader 64 1 []).brLengthBits.toNat < (reader 64 1 []).brCursorBits.toNat + (64 : Byte).toNat ∧
    (reader 72 8 []).brCursorBits.toNat + (64 : Byte).toNat ≤ (reader 72 8 []).brLengthBits.toNat ∧
    (reader 72 8 []).brLengthBits.toNat ≤ 8 * (reader 72 8 []).storageBytes ∧ (32 : Byte).toNat ≤ 32 := by decide

theorem witness_BrldbResult :
    fresh.storageBytes ≤ (16 : Data).toNat ∧ (15 : Data).toNat < fresh.storageBytes ∧ (14 : Nat) ≠ (15 : Data).toNat := by
  decide

/-- The writer after five bits, and a reader that holds its byte. -/
theorem witness_BitBufferRoundTrip :
    let s := writer 8 3 [(0, 0b101)]
    let u := reader 8 3 [(0, 0xD5)]
    WriterInv s ∧ ReaderInv u ∧ (5 : Byte).toNat ≤ 64 ∧
    s.bwCursorBits.toNat + (5 : Byte).toNat ≤ s.bwCapacityBits.toNat ∧
    (∃ s', exec (.wrbits64 5 0b11010) s = .next s' ∧ CarriedOver s' u) ∧
    u.brCursorBits = s.bwCursorBits ∧ s.bwCursorBits.toNat + (5 : Byte).toNat ≤ u.brLengthBits.toNat := by
  refine ⟨by unfold WriterInv; decide, by unfold ReaderInv; decide, by decide, by decide, ⟨_, rfl, ?_⟩, by decide, by decide⟩
  show ∀ p < 8, ∀ b, Memory.bitAt [(0, 0xD5)] p = some b →
    (Memory.byteAt [(0, 0xD5)] 0 (p / 8)).getLsbD (p % 8) = b
  decide

/-- Two short fields written and then read. -/
theorem witness_FieldSequenceRoundTrip :
    let fields : List (Byte × BitVec 64) := [(3, 0b101), (5, 0b11010)]
    let s := presented (presentWrites fields) (writer 8 0 [])
    let u := presented (presentReads fields) (reader 8 0 [(0, 0xD5)])
    WriterInv s ∧ ReaderInv u ∧ (∀ f ∈ fields, f.1.toNat ≤ 64) ∧
    s.bwCursorBits.toNat + totalBits fields ≤ s.bwCapacityBits.toNat ∧ s.pending = presentWrites fields ∧
    (∃ s', Host.Core.run core fields.length s = .next s' ∧ CarriedOver s' u) ∧ u.brCursorBits = s.bwCursorBits ∧
    s.bwCursorBits.toNat + totalBits fields ≤ u.brLengthBits.toNat ∧ u.pending = presentReads fields := by
  refine ⟨by unfold WriterInv; decide, by unfold ReaderInv; decide,
    List.forall_mem_cons.2 ⟨by decide, List.forall_mem_singleton.2 (by decide)⟩, by decide, rfl, ⟨_, rfl, ?_⟩, by decide,
    by decide, rfl⟩
  show ∀ p < 8, ∀ b, Memory.bitAt [(0, 0xD5)] p = some b →
    (Memory.byteAt [(0, 0xD5)] 0 (p / 8)).getLsbD (p % 8) = b
  decide

/-- 1 against -2, at both widths. -/
theorem witness_ZigzagKeepsMagnitudeOrder :
    (1 : BitVec 32).toInt.natAbs < (0xFFFFFFFE : BitVec 32).toInt.natAbs ∧
    (1 : BitVec 64).toInt.natAbs < (0xFFFFFFFFFFFFFFFE : BitVec 64).toInt.natAbs := by decide

theorem witness_ZigzagCommandsAreStateless :
    unitOf (.zzenc32 1) = .zz ∧ (∃ t, exec .rduv32 (fed [0x01]) = .next t ∧ Answered (fed [0x01]) t ⟨.ok, 1, 1⟩) ∧
    ∃ t, exec .rduv64 (fed [0x01]) = .next t ∧ Answered (fed [0x01]) t ⟨.ok, 1, 1⟩ :=
  ⟨rfl, ⟨_, rfl, rfl⟩, _, rfl, rfl⟩

/-- A sink that accepts everything, and one that refuses at its second call. -/
theorem witness_VarintEncode :
    SinkAccepts fresh.sink 10 ∧ 1 < 2 ∧ SinkAccepts (sinkThen 1 (some .fail)).sink 1 ∧
    sinkAnswerAt (sinkThen 1 (some .fail)).sink 1 = some .fail := by
  unfold SinkAccepts
  decide

/-- The premise on the operand of R80's one-byte range, and encodings that have a fifth and a tenth byte. -/
theorem witness_VarintSizeLaw :
    (127 : BitVec 32).toNat < 128 ∧ (uvarintBytes (0x10000000 : BitVec 32))[4]? = some 0x01 ∧
    (127 : BitVec 64).toNat < 128 ∧ (uvarintBytes (0x8000000000000000 : BitVec 64))[9]? = some 0x01 := by decide

/-- A source made of a list of bytes gives them. -/
theorem sourceGives_fedThen (bs : List Byte) (after : Option SrcAnswer) : SourceGives (fedThen bs after).source bs := by
  intro j b h
  simp [srcAnswerAt, fedThen, h]

/-- What such a source answers next. -/
theorem srcAnswerAt_fedThen (bs : List Byte) (after : Option SrcAnswer) :
    srcAnswerAt (fedThen bs after).source bs.length = after := by
  simp [srcAnswerAt, fedThen]

/-- A terminated varint of five bytes and one of ten, and a source that gives each. -/
theorem witness_VarintDecode :
    (Terminated [0xFF, 0xFF, 0xFF, 0xFF, 0x7F] ∧
      SourceGives (fedThen [0xFF, 0xFF, 0xFF, 0xFF, 0x7F] none).source [0xFF, 0xFF, 0xFF, 0xFF, 0x7F]) ∧
    Terminated (List.replicate 9 0x80 ++ [0x01]) ∧
      SourceGives (fedThen (List.replicate 9 0x80 ++ [0x01]) none).source (List.replicate 9 0x80 ++ [0x01]) :=
  ⟨⟨⟨[0xFF, 0xFF, 0xFF, 0xFF], 0x7F, rfl, by unfold Flagged; decide, by decide⟩, sourceGives_fedThen _ _⟩,
    ⟨List.replicate 9 0x80, 0x01, rfl, by unfold Flagged; decide, by decide⟩, sourceGives_fedThen _ _⟩

/-- Five flagged bytes and then the end (R101), a failure (R99), or no answer (R119); and the empty stream. -/
theorem witness_CutVarint :
    vdWidth .rduv32 = some 32 ∧ Flagged (List.replicate 5 0x80) ∧ (List.replicate 5 (0x80 : Byte)).length ≤ maxB 32 ∧
    Flagged [] ∧ ∀ after, SourceGives (fedThen (List.replicate 5 0x80) after).source (List.replicate 5 0x80) ∧
      srcAnswerAt (fedThen (List.replicate 5 0x80) after).source (List.replicate 5 (0x80 : Byte)).length = after ∧
      SourceGives (fedThen [] after).source [] ∧ srcAnswerAt (fedThen [] after).source 0 = after :=
  ⟨rfl, by unfold Flagged; decide, by decide, by unfold Flagged; decide, fun after =>
    ⟨sourceGives_fedThen _ _, srcAnswerAt_fedThen _ _, sourceGives_fedThen _ _, srcAnswerAt_fedThen [] _⟩⟩

/-- Six bytes for a 32-bit varint, and a terminated one of five. -/
theorem witness_OverlongVarintFails :
    vdWidth .rdsv32 = some 32 ∧ Flagged (List.replicate 5 0x80) ∧ (List.replicate 5 (0x80 : Byte)).length = maxB 32 ∧
    SourceGives (fedThen (List.replicate 5 0x80 ++ [0x01]) none).source (List.replicate 5 0x80 ++ [0x01]) ∧
    Terminated [0xFF, 0xFF, 0xFF, 0xFF, 0x7F] ∧ ([0xFF, 0xFF, 0xFF, 0xFF, 0x7F] : List Byte).length ≤ maxB 32 :=
  ⟨rfl, by unfold Flagged; decide, by decide, sourceGives_fedThen _ _, witness_VarintDecode.1.1, by decide⟩

/-- The varint of 300 (R28). -/
theorem isVarint_300 : IsVarint 300 [0xAC, 0x02] := by
  refine ⟨by unfold IsVarintLength; decide, fun j b h => ?_⟩
  match j with
  | 0 => cases h; rfl
  | 1 => cases h; rfl
  | j + 2 => simp at h

/-- The sink's side of R99 and R119: of the two bytes of 300 (and of the zigzag code of 150) the first or the last is refused or not
answered; and a varint command that answers Io. -/
theorem witness_PortFailureIsIo :
    veNumber (.wruv32 300) = some 300 ∧ veNumber (.wrsv64 150) = some 300 ∧ IsVarint 300 [0xAC, 0x02] ∧
    1 < [0xAC, 0x02].length ∧
    (∀ after, SinkAccepts (sinkThen 0 after).sink 0 ∧ sinkAnswerAt (sinkThen 0 after).sink 0 = after ∧
      SinkAccepts (sinkThen 1 after).sink 1 ∧ sinkAnswerAt (sinkThen 1 after).sink 1 = after) ∧
    ∃ t, exec (.wruv32 300) (sinkThen 1 (some .fail)) = .next t ∧
      Answered (sinkThen 1 (some .fail)) t ⟨.error .io, 0, 0⟩ :=
  ⟨rfl, rfl, isVarint_300, by decide, fun after => ⟨fun j h => absurd h (by omega), rfl, fun j h => by
    obtain rfl : j = 0 := by omega
    rfl, rfl⟩, _, rfl, rfl⟩

/-- Scenario 1 written out, and a source that gives its bytes back. -/
theorem witness_VarintRoundTrip :
    SinkAccepts fresh.sink 10 ∧ (∃ t, exec (.wruv32 300) fresh = .next t ∧ t.sink.accepted = [0xAC, 0x02]) ∧
    SourceGives (fedThen [0xAC, 0x02] none).source [0xAC, 0x02] :=
  ⟨witness_VarintEncode.1, ⟨_, rfl, rfl⟩, sourceGives_fedThen _ _⟩

end Sys2Proof.Tests
end

/-! The invariant of the machine, one lemma per part of `MachineInv`: where the part holds at a reset, and that every step
keeps it. -/

namespace Sys2Proof.Machine

/-! ### What makes a step keep a predicate -/

/-- A step keeps a predicate that does not look at the host's side of the state, that reset keeps and that every
completed command keeps; an illegal command word answers as a command that fails (R104). -/
theorem step_keeps {P : State → Prop} {s t : State}
    (hhost : ∀ s es src snk, P s → P { s with pending := es, source := src, sink := snk })
    (hreset : ∀ s t, applyReset s = .next t → P s → P t)
    (hcommand : ∀ i s t, Effect i s t → P s → P t)
    (h : step s = .next t) (hs : P s) : P t := by
  have hpending (es : List HostEvent) : P (s.withPending es) := hhost s es s.source s.sink hs
  cases step_effect h with
  | idle _ => exact hs
  | command w es i t _ _ hexec => exact hcommand i _ t (exec_effect hexec) (hpending es)
  | illegal w op es _ _ => exact hcommand .bwfin _ _ (.failed .illegal (by decide)) (hpending es)
  | reset es t _ hr => exact hreset _ t hr (hpending es)
  | source es p _ => exact hhost s es p s.sink hs
  | sink es p _ => exact hhost s es s.source p hs

/-! ### The size of the storage (R6) -/

theorem sizeLegal_step {s t : State} (h : step s = .next t) (hs : SizeLegal s) : SizeLegal t := by
  refine step_keeps (fun _ _ _ _ hs => hs) ?_ ?_ h hs
  · rintro s t ⟨⟩ hs
    exact hs
  · intro i s t he hs
    cases he <;> exact hs

/-! ### The writer's registers (R12, R15) -/

/-- A session with nothing written meets (a), (b) and (c) of R15. -/
theorem writerInv_of_nothingWritten {s : State} (hcap : s.bwCapacityBits.toNat ≤ 8 * s.storageBytes)
    (hcursor : s.bwCursorBits = 0) (hhigh : s.bwHighWaterBits = 0) : WriterInv s := by
  refine ⟨?_, hcap, ?_, hhigh.trans hcursor.symm⟩
  · rw [hcursor]; exact Nat.zero_le _
  · rw [hhigh]; exact Nat.zero_le _

theorem toPos_capacity_le {cap size : Nat} (h : cap ≤ size) : (toPos (8 * cap)).toNat ≤ 8 * size :=
  (toNat_ofNat_pos_le _).trans (Nat.mul_le_mul_left 8 h)

/-- A write that fits moves the cursor to the end of its field. -/
theorem bwAdvance_cursor_toNat {w : Nat} {s : State} {n : Nat} (v : BitVec w)
    (hfits : s.bwCursorBits.toNat + n ≤ s.bwCapacityBits.toNat) :
    (s.bwAdvance n v).bwCursorBits.toNat = s.bwCursorBits.toNat + n :=
  toNat_ofNat_pos (hfits.trans_lt s.bwCapacityBits.isLt)

/-- Where the high-water mark is the cursor, a write moves both alike. -/
theorem bwAdvance_highWater_eq_cursor {w : Nat} {s : State} (n : Nat) (v : BitVec w)
    (hhigh : s.bwHighWaterBits = s.bwCursorBits) :
    (s.bwAdvance n v).bwHighWaterBits = (s.bwAdvance n v).bwCursorBits := by
  rw [State.bwAdvance_bwHighWaterBits, State.bwAdvance_bwCursorBits, hhigh, Nat.max_eq_right (Nat.le_add_right _ _)]

theorem writerInv_bwAdvance {w : Nat} {s : State} {n : Nat} (v : BitVec w) (hs : WriterInv s)
    (hfits : s.bwCursorBits.toNat + n ≤ s.bwCapacityBits.toNat) : WriterInv (s.bwAdvance n v) := by
  obtain ⟨-, hcap, -, hhigh⟩ := hs
  have hhigh' := bwAdvance_highWater_eq_cursor n v hhigh
  have hcursor : (s.bwAdvance n v).bwCursorBits.toNat ≤ s.bwCapacityBits.toNat :=
    (bwAdvance_cursor_toNat v hfits).trans_le hfits
  exact ⟨hcursor, hcap, hhigh' ▸ hcursor, hhigh'⟩

theorem writerInv_afterReset (size : Nat) (src : SrcPort) (snk : SinkPort) :
    WriterInv (State.afterReset size src snk) :=
  writerInv_of_nothingWritten (Nat.zero_le _) rfl rfl

theorem writerInv_applyReset {s t : State} (h : applyReset s = .next t) : WriterInv t := by
  cases h
  exact writerInv_of_nothingWritten (Nat.zero_le _) rfl rfl

theorem writerInv_effect {i : Instr} {s t : State} (he : Effect i s t) (hs : WriterInv s) : WriterInv t := by
  cases he with
  | writerSession cap _ hcap => exact writerInv_of_nothingWritten (toPos_capacity_le hcap) rfl rfl
  | written n v _ _ hfits _ => exact writerInv_bwAdvance v hs hfits
  | _ => exact hs

/-- A step keeps R15 (a), (b), (c). -/
theorem writerInv_step {s t : State} (h : step s = .next t) (hs : WriterInv s) : WriterInv t :=
  step_keeps (fun _ _ _ _ hs => hs) (fun _ _ hr _ => writerInv_applyReset hr) (fun _ _ _ => writerInv_effect) h hs

/-- 8 times a number in a position register is whole bytes, even where the register drops high bits. -/
theorem toPos_capacity_whole (cap : Nat) : (toPos (8 * cap)).toNat % 8 = 0 := by
  rw [toPos, BitVec.toNat_ofNat]
  omega

theorem capacityWhole_step {s t : State} (h : step s = .next t) (hs : CapacityWhole s) : CapacityWhole t := by
  refine step_keeps (fun _ _ _ _ hs => hs) ?_ ?_ h hs
  · rintro s t ⟨⟩ -
    rfl
  · intro i s t he hs
    cases he with
    | writerSession cap => exact toPos_capacity_whole cap.toNat
    | _ => exact hs

/-! ### The reader's registers (R17, R18) -/

/-- A session with the cursor at its start meets R17 and R18. -/
theorem readerInv_of_atStart {s : State} (hlen : s.brLengthBits.toNat ≤ 8 * s.storageBytes)
    (hcursor : s.brCursorBits = 0) : ReaderInv s := by
  refine ⟨?_, hlen⟩
  rw [hcursor]; exact Nat.zero_le _

theorem readerInv_brMoveTo {s : State} {p : Nat} (hs : ReaderInv s) (hp : p ≤ s.brLengthBits.toNat) :
    ReaderInv (s.brMoveTo p) := by
  obtain ⟨-, hlen⟩ := hs
  exact ⟨(toNat_ofNat_pos_le p).trans hp, hlen⟩

theorem readerInv_afterReset (size : Nat) (src : SrcPort) (snk : SinkPort) :
    ReaderInv (State.afterReset size src snk) :=
  readerInv_of_atStart (Nat.zero_le _) rfl

theorem readerInv_applyReset {s t : State} (h : applyReset s = .next t) : ReaderInv t := by
  cases h
  exact readerInv_of_atStart (Nat.zero_le _) rfl

theorem readerInv_effect {i : Instr} {s t : State} (he : Effect i s t) (hs : ReaderInv s) : ReaderInv t := by
  cases he with
  | readerSession len _ hlen => exact readerInv_of_atStart ((toNat_ofNat_pos_le _).trans hlen) rfl
  | moved p _ _ hp => exact readerInv_brMoveTo (s := s) hs hp
  | _ => exact hs

/-- A step keeps R17 and R18. -/
theorem readerInv_step {s t : State} (h : step s = .next t) (hs : ReaderInv s) : ReaderInv t :=
  step_keeps (fun _ _ _ _ hs => hs) (fun _ _ hr _ => readerInv_applyReset hr) (fun _ _ _ => readerInv_effect) h hs

/-! ### The storages and the draws (R16, R19; log 2, 3, 4) -/

theorem State.bwPrefixBytes_eq (s : State) : s.bwPrefixBytes = (s.bwHighWaterBits.toNat + 7) / 8 :=
  Nat.shiftRight_eq_div_pow _ 3

/-- With nothing written, BWFIN counts no byte and none is listed. -/
theorem writerStorageInv_of_nothingWritten {s : State} (hhigh : s.bwHighWaterBits = 0) (hmem : s.bwMem = []) :
    WriterStorageInv s := by
  have hbytes : s.bwPrefixBytes = 0 := by rw [State.bwPrefixBytes_eq, hhigh]; rfl
  refine ⟨hmem ▸ Memory.wf_nil, fun a => ?_, fun p _ => ?_⟩
  · simp [hmem, hbytes]
  · simp [hmem, Memory.bitAt]

/-- The first `c + n` bits of a storage lie in the bytes of its first `c` bits and those its next `n` bits touch. -/
theorem lt_bytesOfBits_add_iff (c n a : Nat) :
    a < (c + n + 7) / 8 ↔ a < (c + 7) / 8 ∨ ∃ j < n, (c + j) / 8 = a := by
  constructor
  · intro h
    by_cases ha : a < (c + 7) / 8
    · exact .inl ha
    · exact .inr ⟨8 * a - c, by omega, by omega⟩
  · rintro (h | ⟨j, hj, rfl⟩) <;> omega

/-- A write that fits lists exactly the bytes that its field touches, and sets no bit above its field. -/
theorem writerStorageInv_bwAdvance {w : Nat} {s : State} {n : Nat} (v : BitVec w) (hw : WriterInv s)
    (hs : WriterStorageInv s) (hfits : s.bwCursorBits.toNat + n ≤ s.bwCapacityBits.toNat) :
    WriterStorageInv (s.bwAdvance n v) := by
  obtain ⟨-, -, -, hhigh⟩ := hw
  obtain ⟨hwf, hlisted, hpad⟩ := hs
  have hhigh' : (s.bwAdvance n v).bwHighWaterBits.toNat = s.bwCursorBits.toNat + n := by
    rw [bwAdvance_highWater_eq_cursor n v hhigh, bwAdvance_cursor_toNat v hfits]
  refine ⟨bwAdvance_wf hwf n v, fun a => ?_, fun p hp hbit => ?_⟩
  · rw [State.bwAdvance_bwMem, fieldInsert_isSome, hlisted, State.bwPrefixBytes_eq, State.bwPrefixBytes_eq, hhigh',
      hhigh, lt_bytesOfBits_add_iff]
  · rw [hhigh'] at hp
    have hold : s.bwMem.bitAt p = some true := fieldInsert_bitAt_true _ _ v n p hbit (.inr hp)
    exact hpad p (by rw [hhigh]; omega) hold

theorem writerStorageInv_effect {i : Instr} {s t : State} (he : Effect i s t) (hw : WriterInv s)
    (hs : WriterStorageInv s) : WriterStorageInv t := by
  cases he with
  | writerSession => exact writerStorageInv_of_nothingWritten rfl rfl
  | written n v _ _ hfits _ => exact writerStorageInv_bwAdvance v hw hs hfits
  | _ => exact hs

/-- A step keeps the form of `BWMem`, given that the high-water mark is the cursor (R15 (c)). -/
theorem writerStorageInv_step {s t : State} (h : step s = .next t) (hw : WriterInv s) (hs : WriterStorageInv s) :
    WriterStorageInv t := by
  refine (step_keeps (P := fun s => WriterInv s ∧ WriterStorageInv s) (fun _ _ _ _ hs => hs) ?_ ?_ h ⟨hw, hs⟩).2
  · rintro s t hr -
    refine ⟨writerInv_applyReset hr, ?_⟩
    cases hr
    exact writerStorageInv_of_nothingWritten rfl rfl
  · rintro i s t he ⟨hw, hs⟩
    exact ⟨writerInv_effect he hw, writerStorageInv_effect he hw hs⟩

theorem readerStorageInv_of_nothingLoaded {s : State} (hmem : s.brMem = []) : ReaderStorageInv s := by
  simp [ReaderStorageInv, hmem]

theorem readerStorageInv_brLoad {s : State} {a : Nat} (b : Byte) (hs : ReaderStorageInv s) (ha : a < s.storageBytes) :
    ReaderStorageInv (s.brLoad a b) := by
  obtain ⟨hwf, hinside⟩ := hs
  refine ⟨brLoad_wf hwf a b, fun c hc => ?_⟩
  rcases Memory.mem_write hc with rfl | hc
  · exact ha
  · exact hinside c hc

theorem readerStorageInv_step {s t : State} (h : step s = .next t) (hs : ReaderStorageInv s) : ReaderStorageInv t := by
  refine step_keeps (fun _ _ _ _ hs => hs) ?_ ?_ h hs
  · rintro s t ⟨⟩ -
    exact readerStorageInv_of_nothingLoaded rfl
  · intro i s t he hs
    cases he with
    | loaded a b _ ha => exact readerStorageInv_brLoad b hs ha
    | _ => exact hs

/-- The draw counter only rises, and a reset gives the reader the draw just before it (U2, log 2). -/
theorem drawInv_step {s t : State} (h : step s = .next t) (hs : DrawInv s) : DrawInv t := by
  refine step_keeps (fun _ _ _ _ hs => hs) ?_ ?_ h hs
  · rintro s t ⟨⟩ -
    exact Nat.lt_succ_self s.draws
  · intro i s t he hs
    cases he with
    | drawn => exact Nat.lt_succ_of_lt hs
    | _ => exact hs

/-! ### The whole invariant -/

/-- Reset with a legal storage size meets the whole invariant, whatever the ports. -/
theorem machineInv_afterReset {size : Nat} (src : SrcPort) (snk : SinkPort) (hmin : 1 ≤ size)
    (hmax : size ≤ Config.maxStorageBytes) : MachineInv (State.afterReset size src snk) :=
  ⟨⟨hmin, hmax⟩, writerInv_afterReset size src snk, rfl, readerInv_afterReset size src snk,
    writerStorageInv_of_nothingWritten rfl rfl, readerStorageInv_of_nothingLoaded rfl, Nat.zero_lt_one⟩

/-- Settles O15: `State.reset` is the state after reset at the size of the spec's vectors. -/
theorem resetMeetsInvariant : Obligations.ResetMeetsInvariant :=
  ⟨machineInv_afterReset .empty .empty (by decide) (by decide),
    fun _ src snk hmin hmax => machineInv_afterReset src snk hmin hmax⟩

/-- Settles O18, part by part; only the form of `BWMem` needs another part, R15 (c). -/
theorem stepKeepsInvariant : Obligations.StepKeepsInvariant := by
  rintro s t ⟨hsize, hwriter, hwhole, hreader, hbwMem, hbrMem, hdraws⟩ h
  exact ⟨sizeLegal_step h hsize, writerInv_step h hwriter, capacityWhole_step h hwhole, readerInv_step h hreader,
    writerStorageInv_step h hwriter hbwMem, readerStorageInv_step h hbrMem, drawInv_step h hdraws⟩

end Sys2Proof.Machine

/-! What each command and each step does to the parts of the state: the invariants of R15, R17 and R18, the frame of every
state element, and what the two bit units and the unspecified bits of `BWMem` can tell each other. -/

namespace Sys2Proof.Machine

/-! ### The invariants of the two bit units -/

/-- Settles O16: R15 after reset and at every step. -/
theorem writerInvariantKept : Obligations.WriterInvariantKept :=
  ⟨writerInv_afterReset, fun _ _ hs h => writerInv_step h hs⟩

/-- Settles O17: R17 and R18 after reset and at every step. -/
theorem readerInvariantKept : Obligations.ReaderInvariantKept :=
  ⟨readerInv_afterReset, fun _ _ hs h => readerInv_step h hs⟩

/-- Settles O11: each register and storage is the one `State.afterReset` lists. -/
theorem resetLeavesRegistersZero : Obligations.ResetLeavesRegistersZero :=
  fun _ _ _ => ⟨rfl, rfl, rfl, rfl, rfl, fun _ => ⟨rfl, rfl⟩, rfl, rfl, rfl⟩

/-! ### The bytes of `BRMem` that are not loaded (U2) -/

/-- A completed command changes what a byte of `BRMem` reads as only by loading it. -/
theorem Effect.brByte_of_unloaded {i : Instr} {s t : State} {a : Nat} (he : Effect i s t)
    (ha : t.brMem.read a = none) : t.brByte a = s.brByte a := by
  cases he with
  | loaded addr b =>
    have hread : (s.brMem.write addr.toNat b).read a = none := ha
    have hother : addr.toNat ≠ a := by
      rintro rfl
      simp at hread
    simp [State.brByte, Memory.byteAt, hother]
  | _ => rfl

/-- Reset draws every byte of `BRMem` anew (U2). -/
theorem applyReset_brByte {s t : State} (h : applyReset s = .next t) (a : Nat) :
    t.brByte a = Config.freeByte s.draws a ∧ t.draws = s.draws + 1 := by
  cases h
  exact ⟨rfl, rfl⟩

theorem step_of_reset {s : State} {es : List HostEvent} (hp : s.pending = .reset :: es) :
    step s = applyReset (s.withPending es) := by
  rw [step, hp]

/-- Settles O13: only a reset draws `BRMem` anew, and only BRLDB loads a byte of it. -/
theorem unloadedReaderBytesAreFixed : Obligations.UnloadedReaderBytesAreFixed := by
  intro s t h
  refine ⟨fun es hp => applyReset_brByte (s := s.withPending es) (step_of_reset hp ▸ h), fun hnot a ha => ?_⟩
  cases step_effect h with
  | command w es i t _ _ hexec => exact (exec_effect hexec).brByte_of_unloaded ha
  | reset es t hp _ => exact absurd hp (hnot es)
  | _ => rfl

/-! ### The frame of every state element (R7) -/

section Frame

variable {i : Instr} {s t : State}

theorem Effect.bwCapacityBits_eq (he : Effect i s t) (hnew : ∀ c, i ≠ .bwnew c) :
    t.bwCapacityBits = s.bwCapacityBits := by
  cases he with
  | writerSession cap hi => exact absurd hi (hnew cap)
  | _ => rfl

theorem Effect.sameBW (he : Effect i s t) (hnew : ∀ c, i ≠ .bwnew c) (h32 : ∀ n v, i ≠ .wrbits32 n v)
    (h64 : ∀ n v, i ≠ .wrbits64 n v) : SameBW s t := by
  cases he with
  | writerSession cap hi => exact absurd hi (hnew cap)
  | written n v hi =>
    obtain ⟨v', hi⟩ | ⟨v', hi⟩ := hi
    · exact absurd hi (h32 n v')
    · exact absurd hi (h64 n v')
  | _ => exact ⟨rfl, rfl, rfl, rfl⟩

theorem Effect.brLengthBits_eq (he : Effect i s t) (hnew : ∀ l, i ≠ .brnew l) : t.brLengthBits = s.brLengthBits := by
  cases he with
  | readerSession len hi => exact absurd hi (hnew len)
  | _ => rfl

theorem Effect.brCursorBits_eq (he : Effect i s t) (hnew : ∀ l, i ≠ .brnew l) (hseek : ∀ p, i ≠ .brseek p)
    (h32 : ∀ n, i ≠ .rdbits32 n) (h64 : ∀ n, i ≠ .rdbits64 n) : t.brCursorBits = s.brCursorBits := by
  cases he with
  | readerSession len hi => exact absurd hi (hnew len)
  | moved p r hi =>
    obtain ⟨q, hi⟩ | ⟨n, hi⟩ | ⟨n, hi⟩ := hi
    · exact absurd hi (hseek q)
    · exact absurd hi (h32 n)
    · exact absurd hi (h64 n)
  | _ => rfl

theorem Effect.brMem_eq (he : Effect i s t) (hload : ∀ a b, i ≠ .brldb a b) : t.brMem = s.brMem := by
  cases he with
  | loaded a b hi => exact absurd hi (hload a b)
  | _ => rfl

/-- Only reset draws the unloaded bytes of `BRMem`. -/
theorem Effect.brImage_eq (he : Effect i s t) : t.brImage = s.brImage := by
  cases he <;> rfl

theorem Effect.draws_eq (he : Effect i s t) (hread : ∀ a, i ≠ .bwrdb a) : t.draws = s.draws := by
  cases he with
  | drawn a r hi => exact absurd hi (hread a)
  | _ => rfl

theorem Effect.source_eq (he : Effect i s t) (hunit : unitOf i ≠ .vd) : t.source = s.source := by
  cases he with
  | decoded p k r hi => exact absurd hi hunit
  | decodeFailed p e hi => exact absurd hi hunit
  | _ => rfl

theorem Effect.sink_eq (he : Effect i s t) (hunit : unitOf i ≠ .ve) : t.sink = s.sink := by
  cases he with
  | encoded p k hi => exact absurd hi hunit
  | encodeFailed p hi => exact absurd hi hunit
  | _ => rfl

theorem Effect.sameHost (he : Effect i s t) : SameHost s t := by
  cases he <;> exact ⟨rfl, rfl⟩

end Frame

/-- Settles O22, one frame lemma per state element. -/
theorem stateWrittenOnlyByItsCommands : Obligations.StateWrittenOnlyByItsCommands := by
  intro i s t h
  have he := exec_effect h
  exact ⟨he.bwCapacityBits_eq, he.sameBW, he.brLengthBits_eq, he.brCursorBits_eq, he.brMem_eq, he.brImage_eq,
    he.draws_eq, he.source_eq, he.sink_eq, he.sameHost⟩

/-! ### The two bit units do not see each other (R22) -/

section OtherUnit

variable (s r : State)

/-! BW with everything of BR replaced. -/

theorem execBwnew_withBR (cap : Data) :
    execBwnew cap (s.withBR r) = mapNext (·.withBR r) (execBwnew cap s) := by
  rw [execBwnew, execBwnew, apply_ite (mapNext _)]
  rfl

theorem bwWrite_withBR {w : Nat} (n : Byte) (v : BitVec w) :
    bwWrite n v (s.withBR r) = mapNext (·.withBR r) (bwWrite n v s) := by
  rw [bwWrite, bwWrite, apply_ite (mapNext _), apply_ite (mapNext _), apply_ite (mapNext _)]
  rfl

theorem bwReadByte_withBR (addr : Nat) : bwReadByte (s.withBR r) addr = bwReadByte s addr := rfl

theorem execBwrdb_withBR (addr : Data) :
    execBwrdb addr (s.withBR r) = mapNext (·.withBR r) (execBwrdb addr s) := by
  rw [execBwrdb, execBwrdb, bwReadByte_withBR, apply_ite (mapNext _), apply_ite (mapNext _)]
  dsimp only
  cases (bwReadByte s addr.toNat).2 <;> rfl

theorem exec_withBR {i : Instr} (hunit : unitOf i = .bw) :
    exec i (s.withBR r) = mapNext (·.withBR r) (exec i s) := by
  cases i with
  | bwnew cap => exact execBwnew_withBR s r cap
  | bwfin => rfl
  | wrbits32 n v => exact bwWrite_withBR s r n v
  | wrbits64 n v => exact bwWrite_withBR s r n v
  | bwrdb addr => exact execBwrdb_withBR s r addr
  | _ => cases hunit

/-! The other four units with everything of BW replaced. -/

theorem execBrnew_withBW (len : Data) :
    execBrnew len (s.withBW r) = mapNext (·.withBW r) (execBrnew len s) := by
  rw [execBrnew, execBrnew, apply_ite (mapNext _)]
  rfl

theorem execBrseek_withBW (pos : Data) :
    execBrseek pos (s.withBW r) = mapNext (·.withBW r) (execBrseek pos s) := by
  rw [execBrseek, execBrseek, apply_ite (mapNext _)]
  rfl

theorem brRead_withBW (w : Nat) (n : Byte) :
    brRead w n (s.withBW r) = mapNext (·.withBW r) (brRead w n s) := by
  rw [brRead, brRead, apply_ite (mapNext _), apply_ite (mapNext _), apply_ite (mapNext _)]
  rfl

theorem execBrldb_withBW (addr : Data) (byte : Byte) :
    execBrldb addr byte (s.withBW r) = mapNext (·.withBW r) (execBrldb addr byte s) := by
  rw [execBrldb, execBrldb, apply_ite (mapNext _)]
  rfl

@[simp] theorem State.withBW_source : (s.withBW r).source = s.source := rfl
@[simp] theorem State.withBW_sink : (s.withBW r).sink = s.sink := rfl

theorem uvarintEncode_withBW {w : Nat} (u : BitVec w) :
    uvarintEncode u (s.withBW r) = mapNext (·.withBW r) (uvarintEncode u s) := by
  rw [uvarintEncode, uvarintEncode, State.withBW_sink]
  cases putBytes (uvarintBytes u) s.sink <;> rfl

theorem uvarintDecode_withBW {w : Nat} (f : BitVec w → BitVec w) :
    uvarintDecode f (s.withBW r) = mapNext (·.withBW r) (uvarintDecode f s) := by
  rw [uvarintDecode, uvarintDecode, State.withBW_source]
  cases uvarintDecodeFrom (maxB w) 0 (0 : BitVec w) s.source <;> rfl

/-- No command of another unit sees or touches anything of BW. -/
theorem exec_withBW {i : Instr} (hunit : unitOf i ≠ .bw) :
    exec i (s.withBW r) = mapNext (·.withBW r) (exec i s) := by
  cases i with
  | bwnew | bwfin | wrbits32 | wrbits64 | bwrdb => exact absurd rfl hunit
  | brnew len => exact execBrnew_withBW s r len
  | brseek pos => exact execBrseek_withBW s r pos
  | rdbits32 n => exact brRead_withBW s r 32 n
  | rdbits64 n => exact brRead_withBW s r 64 n
  | brldb addr byte => exact execBrldb_withBW s r addr byte
  | zzenc32 | zzenc64 | zzdec32 | zzdec64 => rfl
  | wruv32 | wruv64 | wrsv32 | wrsv64 => exact uvarintEncode_withBW s r _
  | rduv32 | rduv64 | rdsv32 | rdsv64 => exact uvarintDecode_withBW s r _

end OtherUnit

/-- Settles O23: each command of a bit unit commutes with replacing the other unit. -/
theorem unitsAreIndependent : Obligations.UnitsAreIndependent :=
  fun _ s r => ⟨exec_withBR s r, fun hunit => exec_withBW s r (by rw [hunit]; decide)⟩

/-! ### The unspecified bits of `BWMem` (R16, U1, U3) -/

theorem SameSpecified.gave {s t : State} (h : SameSpecified s t) (r : Response) :
    SameSpecified (s.gave r) (t.gave r) := by
  obtain ⟨ht, hbits⟩ := h
  exact ⟨congrArg (·.gave r) ht, hbits⟩

/-- Two outcomes decided by one test. -/
theorem sameSpecifiedOut_ite {c : Prop} [Decidable c] {o o' p p' : Out} (ho : SameSpecifiedOut o o')
    (hp : SameSpecifiedOut p p') : SameSpecifiedOut (if c then o else p) (if c then o' else p') := by
  split
  · exact ho
  · exact hp

/-- BWRDB returns the specified bits of a byte and draws the others (R63, U1). -/
theorem bwReadByte_getLsbD_bitAt (s : State) (addr : Nat) {j : Nat} (hj : j < 8) :
    (bwReadByte s addr).1.getLsbD j =
      if 8 * addr + j < s.bwHighWaterBits.toNat then
        (s.bwMem.bitAt (8 * addr + j)).getD ((Config.freeByte s.draws addr).getLsbD j)
      else (Config.freeByte s.draws addr).getLsbD j := by
  have hbyte : (8 * addr + j) / 8 = addr := by omega
  have hoff : (8 * addr + j) % 8 = j := by omega
  rw [bwReadByte_getLsbD _ _ _ hj, Memory.bitAt, hbyte, hoff]
  cases s.bwMem.read addr <;> simp

/-- Where BW is as it was in `s`, taking BW from `s` with another storage replaces the storage alone. -/
theorem withBW_of_sameBW {s u : State} (h : SameBW s u) (m : Memory) :
    u.withBW { s with bwMem := m } = { u with bwMem := m } := by
  obtain ⟨hcap, hcursor, hhigh, -⟩ := h
  simp only [State.withBW, ← hcap, ← hcursor, ← hhigh]

section UnspecifiedBits

/-! The two states are `s` and the same with `m` for its storage, which agree below the high-water mark. -/

variable {s : State} {m : Memory} (hbits : ∀ p < s.bwHighWaterBits.toNat, m.bitAt p = s.bwMem.bitAt p)

include hbits

theorem sameSpecified_bwMem : SameSpecified s { s with bwMem := m } := ⟨rfl, hbits⟩

/-- A new session forgets every bit. -/
theorem execBwnew_sameSpecified (cap : Data) :
    SameSpecifiedOut (execBwnew cap s) (execBwnew cap { s with bwMem := m }) :=
  sameSpecifiedOut_ite ((sameSpecified_bwMem hbits).gave _) ⟨rfl, fun _ _ => rfl⟩

/-- Where the cursor is the high-water mark, a write extends the specified bits by its field. -/
theorem bwAdvance_sameSpecified {w : Nat} (n : Nat) (v : BitVec w) (hhigh : s.bwHighWaterBits = s.bwCursorBits) :
    SameSpecified (s.bwAdvance n v) (State.bwAdvance { s with bwMem := m } n v) := by
  refine ⟨rfl, fun p hp => ?_⟩
  have hmark : (s.bwAdvance n v).bwHighWaterBits.toNat ≤ s.bwCursorBits.toNat + n := by
    rw [bwAdvance_highWater_eq_cursor n v hhigh]
    exact toNat_ofNat_pos_le _
  exact fieldInsert_agree v n (hhigh ▸ hbits) p (hp.trans_le hmark)

theorem bwWrite_sameSpecified {w : Nat} (n : Byte) (v : BitVec w) (hhigh : s.bwHighWaterBits = s.bwCursorBits) :
    SameSpecifiedOut (bwWrite n v s) (bwWrite n v { s with bwMem := m }) := by
  have hrefused := (sameSpecified_bwMem hbits).gave ⟨.error .overflow, 0, 0⟩
  have hwritten := (bwAdvance_sameSpecified hbits n.toNat v hhigh).gave ⟨.ok, 0, 0⟩
  exact sameSpecifiedOut_ite hrefused (sameSpecifiedOut_ite hrefused (sameSpecifiedOut_ite rfl hwritten))

theorem bwReadByte_bwMem (addr : Nat) : bwReadByte { s with bwMem := m } addr = bwReadByte s addr := by
  refine Prod.ext (BitVec.eq_of_getLsbD_eq fun j hj => ?_) ?_
  · rw [bwReadByte_getLsbD_bitAt _ _ hj, bwReadByte_getLsbD_bitAt _ _ hj]
    split
    · next hspec => rw [hbits _ hspec]
    · rfl
  · rw [bwReadByte_drawn, bwReadByte_drawn]

theorem execBwrdb_sameSpecified (addr : Data) :
    SameSpecifiedOut (execBwrdb addr s) (execBwrdb addr { s with bwMem := m }) := by
  refine sameSpecifiedOut_ite ((sameSpecified_bwMem hbits).gave _) (sameSpecifiedOut_ite rfl ?_)
  rw [bwReadByte_bwMem hbits]
  dsimp only
  cases (bwReadByte s addr.toNat).2
  · exact (sameSpecified_bwMem hbits).gave _
  · exact ⟨rfl, hbits⟩

/-- A command of another unit sees nothing of BW and leaves it as it was. -/
theorem exec_sameSpecified_of_ne_bw {i : Instr} (hunit : unitOf i ≠ .bw) :
    SameSpecifiedOut (exec i s) (exec i { s with bwMem := m }) := by
  have hother : exec i { s with bwMem := m } = _ := exec_withBW s { s with bwMem := m } hunit
  rw [hother]
  cases hout : exec i s with
  | next u =>
    have hkept : SameBW s u := (exec_effect hout).sameBW (by rintro _ rfl; exact hunit rfl)
      (by rintro _ _ rfl; exact hunit rfl) (by rintro _ _ rfl; exact hunit rfl)
    refine ⟨withBW_of_sameBW hkept m, ?_⟩
    obtain ⟨-, -, hhigh, hmem⟩ := hkept
    rw [hhigh, hmem]
    exact hbits
  | fault f => rfl
  | refused f => rfl

theorem exec_sameSpecified (hhigh : s.bwHighWaterBits = s.bwCursorBits) (i : Instr) :
    SameSpecifiedOut (exec i s) (exec i { s with bwMem := m }) := by
  by_cases hunit : unitOf i = .bw
  · cases i with
    | bwnew cap => exact execBwnew_sameSpecified hbits cap
    | bwfin => exact (sameSpecified_bwMem hbits).gave _
    | wrbits32 n v => exact bwWrite_sameSpecified hbits n v hhigh
    | wrbits64 n v => exact bwWrite_sameSpecified hbits n v hhigh
    | bwrdb addr => exact execBwrdb_sameSpecified hbits addr
    | _ => cases hunit
  · exact exec_sameSpecified_of_ne_bw hbits hunit

theorem step_sameSpecified (hhigh : s.bwHighWaterBits = s.bwCursorBits) :
    SameSpecifiedOut (step s) (step { s with bwMem := m }) := by
  rw [step, step]
  cases hp : s.pending with
  | nil => exact ⟨by rw [hp], hbits⟩
  | cons e es =>
    cases e with
    | command w =>
      dsimp only
      cases decode w with
      | instr i => exact exec_sameSpecified (s := s.withPending es) hbits hhigh i
      | illegal op => exact (sameSpecified_bwMem (s := s.withPending es) hbits).gave _
    | reset => exact ⟨rfl, fun _ _ => rfl⟩
    | attachSource answers after => exact ⟨rfl, hbits⟩
    | attachSink answers after => exact ⟨rfl, hbits⟩
    | resetDuringCommand w => rfl
    | twoCommands w w' => rfl

end UnspecifiedBits

/-- Settles O24: R15 (c) makes every write begin where the specified bits end, and BWRDB draws the others. -/
theorem unspecifiedBitsNeverLeak : Obligations.UnspecifiedBitsNeverLeak := by
  rintro s t ⟨-, -, -, hhigh⟩ ⟨ht, hbits⟩
  rw [ht]
  exact step_sameSpecified hbits hhigh

end Sys2Proof.Machine

/-! Every presented command completes: no command ends in a fault or a refusal where the invariants of R15, R17 and R18
hold and the ports answer (R36, R119). -/

namespace Sys2Proof.Machine

/-! ### What a step on a presented command word runs -/

theorem step_of_command {s : State} {w : CmdWord} {es : List HostEvent} {i : Instr}
    (hp : s.pending = .command w :: es) (hd : decode w = .instr i) : step s = exec i (s.withPending es) := by
  rw [step, hp]
  dsimp only
  rw [hd]

theorem step_of_illegal {s : State} {w : CmdWord} {es : List HostEvent} {op : Byte}
    (hp : s.pending = .command w :: es) (hd : decode w = .illegal op) : step s = raiseIllegal (s.withPending es) := by
  rw [step, hp]
  dsimp only
  rw [hd]

/-- Settles O8: the host's list without the presentation is `State.withPending`. -/
theorem stepRunsPresentedCommand : Obligations.StepRunsPresentedCommand :=
  fun _ _ _ _ hp hd => step_of_command hp hd

/-! ### Outcomes that are a next state -/

/-- The outcome is a next state: no fault, no refusal. -/
def Completes (o : Out) : Prop := ∃ t, o = .next t

theorem completes_respond (r : Data) (c : BitVec 8) (s : State) : Completes (respond r c s) := ⟨_, rfl⟩

theorem completes_raise (e : ErrorKind) (s : State) : Completes (raise e s) := ⟨_, rfl⟩

theorem completes_ite {c : Prop} [Decidable c] {o p : Out} (ho : c → Completes o) (hp : ¬c → Completes p) :
    Completes (if c then o else p) := by
  split
  · next h => exact ho h
  · next h => exact hp h

/-- A command that checks its operand, fails with `e` where the check does, and otherwise responds. -/
theorem completes_checked {c : Prop} [Decidable c] (e : ErrorKind) (r : Data) (k : BitVec 8) (s t : State) :
    Completes (if c then raise e s else respond r k t) :=
  completes_ite (fun _ => completes_raise e s) fun _ => completes_respond r k t

/-! ### The procedures that can fault -/

section Procedures

variable {s : State}

/-- R15 (a) keeps a write that passes the capacity check inside the storage. -/
theorem bwWrite_completes (hcap : s.bwCapacityBits.toNat ≤ 8 * s.storageBytes) {w : Nat} (n : Byte) (v : BitVec w) :
    Completes (bwWrite n v s) := by
  by_cases h : w < n.toNat ∨ s.bwCapacityBits.toNat < s.bwCursorBits.toNat + n.toNat
  · exact ⟨_, bwWrite_overflow h⟩
  · obtain ⟨hn, hfits⟩ := not_or.1 h
    exact ⟨_, bwWrite_ok (Nat.le_of_not_lt hn) (Nat.le_of_not_lt hfits) hcap⟩

/-- R15 (a) and (b) keep every byte of the written prefix inside the storage. -/
theorem bwPrefixBytes_le_storageBytes (hw : WriterInv s) : s.bwPrefixBytes ≤ s.storageBytes := by
  obtain ⟨-, hcap, hhigh, -⟩ := hw
  rw [State.bwPrefixBytes_eq]
  omega

theorem execBwrdb_completes (hw : WriterInv s) (addr : Data) : Completes (execBwrdb addr s) := by
  refine completes_ite (fun _ => completes_raise _ _) fun hlisted => ?_
  have hinside : ¬ s.storageBytes ≤ addr.toNat := fun h => hlisted ((bwPrefixBytes_le_storageBytes hw).trans h)
  rw [if_neg hinside]
  exact completes_respond _ _ _

/-- R17 keeps a read that passes the length check inside the storage. -/
theorem brRead_completes (hlen : s.brLengthBits.toNat ≤ 8 * s.storageBytes) (w : Nat) (n : Byte) :
    Completes (brRead w n s) := by
  refine completes_ite (fun _ => completes_raise _ _) fun _ => ?_
  refine completes_ite (fun _ => completes_raise _ _) fun hfits => ?_
  have hinside : ¬ s.storageBits < s.brCursorBits.toNat + n.toNat := fun h => hfits (hlen.trans_lt h)
  rw [if_neg hinside]
  exact completes_respond _ _ _

theorem uvarintEncode_completes (hsink : s.sink.after ≠ none) {w : Nat} (u : BitVec w) :
    Completes (uvarintEncode u s) := by
  rw [uvarintEncode]
  cases hrun : putBytes (uvarintBytes u) s.sink with
  | accepted p => exact completes_respond _ _ _
  | failed p => exact completes_raise _ _
  | neverAnswered => exact absurd hrun (putBytes_answered hsink)

theorem uvarintDecode_completes (hsource : s.source.after ≠ none) {w : Nat} (f : BitVec w → BitVec w) :
    Completes (uvarintDecode f s) := by
  rw [uvarintDecode]
  cases hrun : uvarintDecodeFrom (maxB w) 0 (0 : BitVec w) s.source with
  | value v k p => exact completes_respond _ _ _
  | failed e p => exact completes_raise _ _
  | neverAnswered => exact absurd hrun (uvarintDecodeFrom_answered _ _ _ hsource)

end Procedures

/-! ### Every command -/

theorem exec_completes {s : State} (hw : WriterInv s) (hr : ReaderInv s) (hports : PortsAnswer s) (i : Instr) :
    Completes (exec i s) := by
  have ⟨_, hcap, _, _⟩ := hw
  obtain ⟨-, hlen⟩ := hr
  obtain ⟨hsource, hsink⟩ := hports
  cases i with
  | bwnew | brnew | brseek | brldb => exact completes_checked _ _ _ _ _
  | bwfin | zzenc32 | zzenc64 | zzdec32 | zzdec64 => exact completes_respond _ _ _
  | wrbits32 n v => exact bwWrite_completes hcap n v
  | wrbits64 n v => exact bwWrite_completes hcap n v
  | bwrdb addr => exact execBwrdb_completes hw addr
  | rdbits32 n => exact brRead_completes hlen 32 n
  | rdbits64 n => exact brRead_completes hlen 64 n
  | wruv32 | wruv64 | wrsv32 | wrsv64 => exact uvarintEncode_completes hsink _
  | rduv32 | rduv64 | rdsv32 | rdsv64 => exact uvarintDecode_completes hsource _

/-- Settles O19: a legal word runs a command, which completes, and an illegal one answers Illegal (R104). -/
theorem everyPresentedCommandCompletes : Obligations.EveryPresentedCommandCompletes := by
  rintro s w es ⟨-, hw, -, hr, -, -, -⟩ hports hp
  cases hd : decode w with
  | instr i =>
    rw [step_of_command hp hd]
    exact exec_completes (s := s.withPending es) hw hr hports i
  | illegal op =>
    rw [step_of_illegal hp hd]
    exact completes_raise .illegal _

end Sys2Proof.Machine

/-! The encoding (30_encoding.md): what the decoder reads from each field, which words the encoder writes, the illegal opcodes,
and the fields of a response word. -/

namespace Sys2Proof

/-! ### Decoding the word of a command -/

/-- An operand of a 32-bit command is put into `data` zero-extended (R40), and its low half gives it back. -/
theorem setWidth_zeroExtend_operand (v : BitVec 32) : (v.zeroExtend 64).setWidth 32 = v := by
  rw [BitVec.zeroExtend, BitVec.setWidth_setWidth_of_le _ (by omega), BitVec.setWidth_eq]

/-- Settles O1: the opcode selects the constructor, and each operand is read from the field it was put into. -/
theorem decodeEncodeRoundTrip : Obligations.DecodeEncodeRoundTrip := by
  intro i
  rw [decode.eq_def]
  cases i with
  | bwfin | rduv32 | rduv64 | rdsv32 | rdsv64 => rfl
  | bwnew | bwrdb | brnew | brseek | zzenc64 | zzdec64 | wruv64 | wrsv64 =>
    rw [encode, opField_cmdWord, dataField_cmdWord]
    rfl
  | rdbits32 | rdbits64 =>
    rw [encode, opField_cmdWord, nField_cmdWord]
    rfl
  | wrbits64 | brldb =>
    rw [encode, opField_cmdWord, nField_cmdWord, dataField_cmdWord]
    rfl
  | zzenc32 | zzdec32 | wruv32 | wrsv32 =>
    rw [encode, opField_cmdWord, data32Field_cmdWord, setWidth_zeroExtend_operand]
    rfl
  | wrbits32 =>
    rw [encode, opField_cmdWord, nField_cmdWord, data32Field_cmdWord, setWidth_zeroExtend_operand]
    rfl

theorem encode_injective {i j : Instr} (h : encode i = encode j) : i = j := by
  have hi := decodeEncodeRoundTrip i
  rw [h, decodeEncodeRoundTrip j] at hi
  injection hi with hji
  exact hji.symm

/-! ### The opcode map -/

/-- The row of the opcode map found under a number that an opcode has. -/
theorem fieldUse_of_toNat {op : Byte} {k : Nat} {r : FieldUse} (hop : op.toNat = k)
    (hr : fieldUses.find? (fun row => row.op == k) = some r) : fieldUse op = some r := by
  rw [fieldUse, hop, hr]

/-- The opcodes without a row are the five ranges of R43. -/
theorem fieldUse_eq_none_iff (op : Byte) :
    fieldUse op = none ↔
      (0x05 ≤ op.toNat ∧ op.toNat ≤ 0x0F) ∨ (0x15 ≤ op.toNat ∧ op.toNat ≤ 0x1F) ∨
      (0x24 ≤ op.toNat ∧ op.toNat ≤ 0x2F) ∨ (0x34 ≤ op.toNat ∧ op.toNat ≤ 0x3F) ∨ 0x44 ≤ op.toNat := by
  simp only [fieldUse, fieldUses, fieldUsesBits, fieldUsesVarint, List.find?_eq_none, List.forall_mem_append,
    List.forall_mem_cons, List.not_mem_nil, false_implies, implies_true, and_true, beq_iff_eq]
  omega

/-! ### The used fields of a word -/

/-- The low `k` bits of `data`, the others 0. -/
def usedData (k : Nat) (d : Data) : Data := (d.setWidth k).setWidth 64

theorem usedData_toNat (k : Nat) (d : Data) : (usedData k d).toNat = d.toNat % 2 ^ k := by
  rw [usedData, BitVec.toNat_setWidth, BitVec.toNat_setWidth,
    Nat.mod_eq_of_lt ((Nat.mod_le _ _).trans_lt d.isLt)]

@[simp] theorem usedData_zero (d : Data) : usedData 0 d = 0 := by
  apply BitVec.eq_of_toNat_eq
  simp [usedData_toNat, Nat.mod_one]

@[simp] theorem usedData_dataField_low (w : CmdWord) : usedData 32 (dataField w) = (data32Field w).zeroExtend 64 := by
  rw [data32Field_eq, usedData, BitVec.zeroExtend]

/-- Bits that are 0 already are not changed by being left out. -/
theorem usedData_of_lt {k : Nat} {d : Data} (h : d.toNat < 2 ^ k) : usedData k d = d := by
  apply BitVec.eq_of_toNat_eq
  rw [usedData_toNat, Nat.mod_eq_of_lt h]

@[simp] theorem usedData_all (d : Data) : usedData 64 d = d := usedData_of_lt d.isLt

/-- The word with the fields its command does not use set to 0, as the assembler writes them (R45). -/
def FieldUse.usedPart (r : FieldUse) (w : CmdWord) : CmdWord :=
  cmdWord (opField w) (if r.usesN then nField w else 0) (usedData r.dataBits (dataField w))

theorem FieldUse.usedPart_of_toNat (r : FieldUse) {w : CmdWord} {k : Nat} (hop : (opField w).toNat = k) :
    r.usedPart w =
      cmdWord (BitVec.ofNat 8 k) (if r.usesN then nField w else 0) (usedData r.dataBits (dataField w)) := by
  rw [← hop, BitVec.ofNat_toNat, BitVec.setWidth_eq, FieldUse.usedPart]

/-! ### The decoder against the opcode map -/

/-- The command a word decodes to has a row, and the encoder writes for it the used part of the word: row by row of the
decoder, the encoder puts each operand where the row says it is used, and 0 elsewhere. -/
theorem encode_of_decode {w : CmdWord} {i : Instr} (h : decode w = .instr i) :
    ∃ r, fieldUse (opField w) = some r ∧ encode i = r.usedPart w := by
  rw [decode.eq_def] at h
  split at h
  case h_23 => cases h
  all_goals
    next hop =>
    cases h
    refine ⟨_, fieldUse_of_toNat hop rfl, ?_⟩
    rw [FieldUse.usedPart_of_toNat _ hop]
    simp [encode]

theorem decode_illegal {w : CmdWord} {op : Byte} (h : decode w = .illegal op) :
    op = opField w ∧ fieldUse (opField w) = none := by
  rw [decode.eq_def] at h
  split at h
  case h_23 =>
    cases h
    refine ⟨rfl, (fieldUse_eq_none_iff _).2 ?_⟩
    simp only [imp_false] at *
    omega
  all_goals cases h

theorem decode_of_fieldUse {w : CmdWord} {r : FieldUse} (h : fieldUse (opField w) = some r) :
    ∃ i, decode w = .instr i ∧ encode i = r.usedPart w := by
  cases hd : decode w with
  | instr i =>
    obtain ⟨r', hr', hi⟩ := encode_of_decode hd
    obtain rfl : r = r' := Option.some.inj (h.symm.trans hr')
    exact ⟨i, rfl, hi⟩
  | illegal op => simp [(decode_illegal hd).2] at h

/-- A word whose opcode has no row decodes to no command (R43). -/
theorem decode_of_fieldUse_none {w : CmdWord} (h : fieldUse (opField w) = none) :
    decode w = .illegal (opField w) := by
  cases hd : decode w with
  | instr i =>
    obtain ⟨r, hr, -⟩ := encode_of_decode hd
    simp [h] at hr
  | illegal op => rw [(decode_illegal hd).1]

theorem fieldUse_eq_none_iff_decode (w : CmdWord) : fieldUse (opField w) = none ↔ ¬∃ i, decode w = .instr i := by
  constructor
  · rintro h ⟨i, hi⟩
    cases hi.symm.trans (decode_of_fieldUse_none h)
  · intro h
    rw [Option.eq_none_iff_forall_ne_some]
    intro r hr
    obtain ⟨i, hi, -⟩ := decode_of_fieldUse hr
    exact h ⟨i, hi⟩

/-! ### Well-formed words and unused fields -/

/-- The three checks of a well-formed word, through the fields of R39. -/
theorem wellFormedWord_iff (w : CmdWord) :
    wellFormedWord w = true ↔ ∃ r, fieldUse (opField w) = some r ∧ (r.usesN = true ∨ nField w = 0) ∧
      (dataField w).toNat < 2 ^ r.dataBits := by
  simp only [wellFormedWord, opIsLegal, unusedNIsZero, unusedDataIsZero, opField, nField, dataField]
  cases fieldUse (w.extractLsb' 72 8) with
  | none => simp
  | some r => simp

/-- A word whose unused fields are 0 is its used part. -/
theorem FieldUse.usedPart_eq_self {r : FieldUse} {w : CmdWord} (hn : r.usesN = true ∨ nField w = 0)
    (hd : (dataField w).toNat < 2 ^ r.dataBits) : r.usedPart w = w := by
  have hn' : (if r.usesN then nField w else 0) = nField w := by
    split
    · rfl
    · next h => exact (hn.resolve_left h).symm
  rw [FieldUse.usedPart, hn', usedData_of_lt hd, cmdWord_fields]

/-- Settles O2: the command's word is the used part of `w`, which of a well-formed `w` is `w`. -/
theorem wellFormedWordRoundTrip : Obligations.WellFormedWordRoundTrip := by
  intro w hw
  obtain ⟨r, hr, hn, hd⟩ := (wellFormedWord_iff w).1 hw
  obtain ⟨i, hi, he⟩ := decode_of_fieldUse hr
  exact ⟨i, hi, he.trans (FieldUse.usedPart_eq_self hn hd)⟩

/-- Words that agree on the opcode and on the used fields have the same used part. -/
theorem FieldUse.usedPart_congr {r : FieldUse} {w w' : CmdWord} (hop : opField w = opField w')
    (hn : r.usesN = true → nField w = nField w')
    (hd : (dataField w).toNat % 2 ^ r.dataBits = (dataField w').toNat % 2 ^ r.dataBits) :
    r.usedPart w = r.usedPart w' := by
  have hn' : (if r.usesN then nField w else 0) = if r.usesN then nField w' else 0 := by
    split
    · next h => exact hn h
    · rfl
  have hd' : usedData r.dataBits (dataField w) = usedData r.dataBits (dataField w') := by
    apply BitVec.eq_of_toNat_eq
    rw [usedData_toNat, usedData_toNat, hd]
  rw [FieldUse.usedPart, FieldUse.usedPart, hop, hn', hd']

/-- Settles O4: the two commands have the same word, so they are one command (O1). -/
theorem unusedFieldsIgnored : Obligations.UnusedFieldsIgnored := by
  intro w w' hop hused
  cases hr : fieldUse (opField w) with
  | none => rw [decode_of_fieldUse_none hr, decode_of_fieldUse_none (hop ▸ hr), hop]
  | some r =>
    obtain ⟨hn, hd⟩ := hused r hr
    obtain ⟨i, hi, he⟩ := decode_of_fieldUse hr
    obtain ⟨j, hj, he'⟩ := decode_of_fieldUse (w := w') (hop ▸ hr)
    have hij : i = j := encode_injective (by rw [he, he', FieldUse.usedPart_congr hop hn hd])
    rw [hi, hj, hij]

/-- Settles O5: one fixed word per conjunct, evaluated. -/
theorem specWordsDecode : Obligations.SpecWordsDecode := by
  unfold Obligations.SpecWordsDecode
  decide

end Sys2Proof

/-! What a command word and a completed command answer. -/

namespace Sys2Proof.Machine

/-- Settles O3: the listed opcodes are those without a row, and `step` answers such a word by `raiseIllegal`. -/
theorem illegalOpcodeCompletes : Obligations.IllegalOpcodeCompletes := by
  intro w
  have hlisted := fieldUse_eq_none_iff (opField w)
  refine ⟨hlisted.symm.trans (fieldUse_eq_none_iff_decode w), fun h => ⟨rfl, fun s es hp => ?_⟩⟩
  exact step_of_illegal hp (decode_of_fieldUse_none (hlisted.2 h))

/-- A completed command gives one response, and a count other than 0 comes from a varint loop. -/
theorem Effect.answered_count {i : Instr} {s t : State} (he : Effect i s t) :
    ∃ r, Answered s t r ∧ (unitOf i ≠ .ve → unitOf i ≠ .vd → r.count = 0) := by
  cases he with
  | encoded p k hi => exact ⟨_, rfl, fun hve _ => absurd hi hve⟩
  | decoded p k r hi => exact ⟨_, rfl, fun _ hvd => absurd hi hvd⟩
  | _ => exact ⟨_, rfl, fun _ _ => rfl⟩

/-- Settles O20: by what a completed command can have done. -/
theorem oneResponsePerCommand : Obligations.OneResponsePerCommand :=
  fun _ _ _ h => (exec_effect h).answered_count

/-- Settles O6: each field is the part of the concatenation that stands at its bit positions. -/
theorem responseWordFields : Obligations.ResponseWordFields := by
  intro r
  rw [Response.word]
  refine ⟨?_, ?_, BitVec.extractLsb'_append_eq_right⟩
  · rw [BitVec.extractLsb'_append_eq_of_le (by decide)]
    exact BitVec.extractLsb'_append_eq_left
  · rw [BitVec.extractLsb'_append_eq_of_le (by decide)]
    exact BitVec.extractLsb'_append_eq_right

end Sys2Proof.Machine

/-! The bit tables and the two forms of the field functions (R50 to R55). -/

namespace Sys2Proof.Machine

theorem bitLoc_mask_toNat (p : Nat) : (bitLoc p).2.toNat = 2 ^ (p % 8) := by
  have hoffset : p % 8 < 8 := Nat.mod_lt _ (by decide)
  rw [bitLoc_eq]
  exact BitVec.toNat_twoPow_of_lt hoffset

/-- Settles O25: a mask is a 1 shifted by a bit offset below the width of a byte. -/
theorem bitLocGivesByteAndMask : Obligations.BitLocGivesByteAndMask :=
  ⟨fun p => ⟨congrArg Prod.fst (bitLoc_eq p), bitLoc_mask_toNat p⟩, by decide⟩

/-- Settles O26: the laws of `bitRead` and `bitWrite`, bit by bit and byte by byte. -/
theorem bitWriteChangesOneBit : Obligations.BitWriteChangesOneBit := by
  refine ⟨bitRead_eq, fun m p b => ⟨bitWrite_bitAt_self m p b, fun q c hq => ?_, fun a ha => ?_⟩⟩
  · exact bitWrite_bitAt_keep m hq b c
  · rw [bitWrite_read, if_neg ha.symm]

/-! ### The touched bytes -/

theorem bytesTouched_of_pos (c : Nat) {n : Nat} (hn : 0 < n) : bytesTouched c n = (c % 8 + n + 7) / 8 := by
  rw [bytesTouched, if_neg hn.ne', and_seven]

theorem bytesTouched_le_nine (c : Nat) {n : Nat} (hn : n ≤ 64) : bytesTouched c n ≤ 9 := by
  rcases Nat.eq_zero_or_pos n with rfl | hpos
  · exact Nat.zero_le 9
  · rw [bytesTouched_of_pos c hpos]
    omega

/-- The touched bytes are those that hold a bit of the field. -/
theorem mem_bytesTouched_iff (c n a : Nat) :
    (c / 8 ≤ a ∧ a < c / 8 + bytesTouched c n) ↔ ∃ j < n, (c + j) / 8 = a := by
  rcases Nat.eq_zero_or_pos n with rfl | hpos
  · simp [bytesTouched]
  · rw [bytesTouched_of_pos c hpos]
    constructor
    · rintro ⟨hfirst, hlast⟩
      exact ⟨8 * a - c, by omega, by omega⟩
    · rintro ⟨j, hj, rfl⟩
      omega

/-! ### Extraction -/

/-- A bit of the field lies in the touched bytes, counted from the start of the first of them. -/
theorem offset_add_lt_bytesTouched {c n j : Nat} (hj : j < n) : c % 8 + j < 8 * bytesTouched c n := by
  rw [bytesTouched_of_pos c (by omega)]
  omega

theorem fieldExtractBytewise_eq (f : Nat → Byte) (c n : Nat) :
    fieldExtractBytewise f c n = fieldExtract f c n := by
  have hbyte : c >>> 3 = c / 8 := Nat.shiftRight_eq_div_pow c 3
  refine Nat.eq_of_testBit_eq fun j => ?_
  rw [fieldExtract_testBit, fieldExtractBytewise, and_seven, hbyte, Nat.testBit_and, Nat.testBit_two_pow_sub_one,
    Nat.testBit_shiftRight, assembleBytes_testBit]
  by_cases hj : j < n
  · have hpos : 8 * (c / 8) + (c % 8 + j) = c + j := by omega
    simp [hj, hpos, offset_add_lt_bytesTouched hj]
  · simp [hj]

/-! ### Insertion -/

/-- A bit of byte `j` of a number moved up by `o` bits. -/
theorem byteOfShifted_getLsbD (x o j : Nat) {b : Nat} (hb : b < 8) :
    (BitVec.ofNat 8 (x <<< o >>> (8 * j))).getLsbD b =
      (decide (o ≤ 8 * j + b) && x.testBit (8 * j + b - o)) := by
  rw [BitVec.getLsbD_ofNat, decide_eq_true hb, Bool.true_and, Nat.testBit_shiftRight, Nat.testBit_shiftLeft]

/-- Which bits an insertion puts into byte `j` of the touched ones (R55). -/
theorem insertedByte_getLsbD {w : Nat} (c n : Nat) (v : BitVec w) (j : Nat) (old : Byte) {b : Nat} (hb : b < 8) :
    (insertedByte c n v j old).getLsbD b =
      if c % 8 ≤ 8 * j + b ∧ 8 * j + b < c % 8 + n then v.getLsbD (8 * j + b - c % 8) else old.getLsbD b := by
  simp only [insertedByte, and_seven, BitVec.getLsbD_or, BitVec.getLsbD_and, BitVec.getLsbD_not,
    byteOfShifted_getLsbD _ _ _ hb, Nat.testBit_two_pow_sub_one, Nat.testBit_mod_two_pow, hb]
  by_cases hlow : c % 8 ≤ 8 * j + b
  · by_cases hhigh : 8 * j + b - c % 8 < n
    · have hin : 8 * j + b < c % 8 + n := by omega
      simp [hlow, hhigh, hin, BitVec.getLsbD]
    · have hout : ¬ 8 * j + b < c % 8 + n := by omega
      simp [hlow, hhigh, hout]
  · simp [hlow]

/-- A touched byte after the bit-wise insertion, bit by bit. -/
theorem insertedByte_eq_fieldInsert {w : Nat} (m : Memory) (c n : Nat) (v : BitVec w) {a : Nat} (ha : c / 8 ≤ a) :
    insertedByte c n v (a - c / 8) ((m.read a).getD 0) = ((fieldInsert m c v n).read a).getD 0 := by
  refine BitVec.eq_of_getLsbD_eq fun i hi => ?_
  have hbyte : (8 * a + i) / 8 = a := by omega
  have hbit : (8 * a + i) % 8 = i := by omega
  have hpos : 8 * (a - c / 8) + i - c % 8 = 8 * a + i - c := by omega
  have hfield := fieldInsert_getLsbD m c n v (8 * a + i)
  rw [hbyte, hbit] at hfield
  rw [insertedByte_getLsbD c n v _ _ hi, hfield, hpos]
  exact if_congr (by omega) rfl rfl

theorem fieldInsertBytewise_bytesTouched_read {w : Nat} (m : Memory) (c n : Nat) (v : BitVec w) (a : Nat) :
    (fieldInsertBytewise m c n v (bytesTouched c n)).read a = (fieldInsert m c v n).read a := by
  rw [fieldInsertBytewise_read]
  by_cases htouched : c / 8 ≤ a ∧ a < c / 8 + bytesTouched c n
  · have hlisted : ((fieldInsert m c v n).read a).isSome :=
      (fieldInsert_isSome m c v n a).2 (.inr ((mem_bytesTouched_iff c n a).1 htouched))
    obtain ⟨x, hx⟩ := Option.isSome_iff_exists.1 hlisted
    rw [if_pos htouched, insertedByte_eq_fieldInsert m c n v htouched.1, hx, Option.getD_some]
  · have hnobit : ∀ j < n, (c + j) / 8 ≠ a := fun j hj he =>
      htouched ((mem_bytesTouched_iff c n a).2 ⟨j, hj, he⟩)
    rw [if_neg htouched, fieldInsert_read m c v n a hnobit]

/-- Settles O27: both forms have the same bits, and they list the same bytes. -/
theorem bytewiseFormsAgree : Obligations.BytewiseFormsAgree :=
  ⟨fieldExtractBytewise_eq, fun _ => fieldInsertBytewise_bytesTouched_read,
    fun _ c n v j _ old hb => insertedByte_getLsbD c n v j old hb, fun c _ hn => bytesTouched_le_nine c hn⟩

end Sys2Proof.Machine

/-! The BitWriter commands (41_bitwriter.md): what each answers and leaves unchanged, that writes pack back to back, and that
the reader gets a written field back (R59 to R64). -/

namespace Sys2Proof.Machine

/-! ### A session (R59, R62) -/

theorem execBwnew_overflow {cap : Data} {s : State} (hcap : s.storageBytes < cap.toNat) :
    execBwnew cap s = .next (s.gave ⟨.error .overflow, 0, 0⟩) := by
  rw [execBwnew, if_pos hcap, raise_eq]

theorem execBwnew_ok {cap : Data} {s : State} (hcap : cap.toNat ≤ s.storageBytes) :
    execBwnew cap s = .next ((s.bwSession (toPos (8 * cap.toNat))).gave ⟨.ok, 0, 0⟩) := by
  rw [execBwnew, if_neg (Nat.not_lt.2 hcap), respond_eq]

/-- The capacity of a session inside a storage of legal size fits its position register (R6, R12). -/
theorem toPos_capacity_toNat {s : State} (hsize : SizeLegal s) {cap : Nat} (hcap : cap ≤ s.storageBytes) :
    (toPos (8 * cap)).toNat = 8 * cap := by
  obtain ⟨-, hmax⟩ := hsize
  rw [Config.maxStorageBytes] at hmax
  exact toNat_ofNat_pos (by omega)

/-- Settles O28, by the two answers of BWNEW. -/
theorem bwnewResult : Obligations.BwnewResult := by
  refine ⟨fun w hop => by rw [decode, hop]; rfl, fun cap s hsize => ⟨execBwnew_overflow, fun hcap => ?_⟩⟩
  exact ⟨_, execBwnew_ok hcap, toPos_capacity_toNat hsize hcap, rfl, rfl, fun _ => rfl, ⟨rfl, rfl, rfl, rfl⟩, ⟨rfl, rfl⟩,
    ⟨rfl, rfl⟩, rfl, rfl⟩

/-- Settles O29: the high-water mark is a 32-bit register, so the length fits the `result` field. -/
theorem bwfinResult : Obligations.BwfinResult := by
  refine ⟨fun w hop => by rw [decode, hop]; rfl, fun s => ⟨BitVec.ofNat 64 s.bwPrefixBytes, ?_, rfl⟩⟩
  have hfits : s.bwPrefixBytes < 2 ^ 64 := by
    rw [State.bwPrefixBytes_eq]
    omega
  rw [BitVec.toNat_ofNat, Nat.mod_eq_of_lt hfits, State.bwPrefixBytes_eq]

/-! ### Writing a field (R58, R60, R61) -/

/-- `FieldInsert` writes its field, and no byte but the touched ones. -/
theorem fieldWritten_fieldInsert {w : Nat} (m : Memory) (c n : Nat) (v : BitVec w) :
    FieldWritten c n v.toNat m (fieldInsert m c v n) := by
  refine ⟨fieldInsert_bitAt m c v n, fun p hp b => fieldInsert_bitAt_keep m c v n p b (.inl hp), fun a huntouched => ?_⟩
  exact fieldInsert_read m c v n a fun j hj he => huntouched ((mem_bytesTouched_iff c n a).2 ⟨j, hj, he⟩)

theorem bwAdvance_highWater_toNat {w : Nat} {s : State} {n : Nat} (v : BitVec w)
    (hfits : s.bwCursorBits.toNat + n ≤ s.bwCapacityBits.toNat) :
    (s.bwAdvance n v).bwHighWaterBits.toNat = max s.bwHighWaterBits.toNat (s.bwCursorBits.toNat + n) :=
  toNat_ofNat_pos (max_lt s.bwHighWaterBits.isLt (hfits.trans_lt s.bwCapacityBits.isLt))

/-- `BWWrite` of a field that fits, at any type width (R58). -/
theorem bwWrite_result {w : Nat} {n : Byte} (v : BitVec w) {s : State} (hn : n.toNat ≤ w)
    (hfits : s.bwCursorBits.toNat + n.toNat ≤ s.bwCapacityBits.toNat)
    (hcap : s.bwCapacityBits.toNat ≤ 8 * s.storageBytes) :
    ∃ t, bwWrite n v s = .next t ∧ FieldWritten s.bwCursorBits.toNat n.toNat v.toNat s.bwMem t.bwMem ∧
      t.bwCapacityBits = s.bwCapacityBits ∧ t.bwCursorBits.toNat = s.bwCursorBits.toNat + n.toNat ∧
      t.bwHighWaterBits.toNat = max s.bwHighWaterBits.toNat (s.bwCursorBits.toNat + n.toNat) ∧
      SameBR s t ∧ SamePorts s t ∧ SameHost s t ∧ t.draws = s.draws ∧ Answered s t ⟨.ok, 0, 0⟩ :=
  ⟨_, bwWrite_ok hn hfits hcap, fieldWritten_fieldInsert _ _ _ v, rfl, bwAdvance_cursor_toNat v hfits,
    bwAdvance_highWater_toNat v hfits, ⟨rfl, rfl, rfl, rfl⟩, ⟨rfl, rfl⟩, ⟨rfl, rfl⟩, rfl, rfl⟩

/-- Settles O30: the two answers of `BWWrite` at type width 32. -/
theorem wrbits32Result : Obligations.Wrbits32Result :=
  ⟨fun w hop => by rw [decode, hop]; rfl, fun _ v _ => ⟨bwWrite_overflow, bwWrite_result v⟩⟩

/-- An insertion looks only at the `n` value bits it stores. -/
theorem fieldInsert_congr {w w' : Nat} {v : BitVec w} {v' : BitVec w'} (m : Memory) (c : Nat) {n : Nat}
    (hbits : ∀ j < n, v.getLsbD j = v'.getLsbD j) : fieldInsert m c v n = fieldInsert m c v' n := by
  induction n with
  | zero => rfl
  | succ n ih => rw [fieldInsert, fieldInsert, hbits n (Nat.lt_succ_self n), ih fun j hj => hbits j (by omega)]

/-- `BWWrite` at two type widths that both hold the field, of values that agree on it. -/
theorem bwWrite_congr {w w' : Nat} {n : Byte} {v : BitVec w} {v' : BitVec w'} (s : State) (hn : n.toNat ≤ w)
    (hn' : n.toNat ≤ w') (hbits : ∀ j < n.toNat, v.getLsbD j = v'.getLsbD j) : bwWrite n v s = bwWrite n v' s := by
  rw [bwWrite, bwWrite, if_neg (Nat.not_lt.2 hn), if_neg (Nat.not_lt.2 hn'), State.bwAdvance, State.bwAdvance,
    fieldInsert_congr _ _ hbits]

/-- Settles O31: as O30, and the low 32 value bits hold every field of at most 32 bits. -/
theorem wrbits64Result : Obligations.Wrbits64Result := by
  refine ⟨fun w hop => by rw [decode, hop]; rfl, fun n v s => ⟨bwWrite_overflow, bwWrite_result v, fun hn => ?_⟩⟩
  refine bwWrite_congr s (hn.trans (by decide)) hn fun j hj => ?_
  rw [BitVec.getLsbD_setWidth, decide_eq_true (hj.trans_le hn), Bool.true_and]

/-! ### Reading a byte of the written prefix (R63) -/

theorem execBwrdb_overflow {addr : Data} {s : State} (hout : (s.bwHighWaterBits.toNat + 7) / 8 ≤ addr.toNat) :
    execBwrdb addr s = .next (s.gave ⟨.error .overflow, 0, 0⟩) := by
  rw [execBwrdb, State.bwPrefixBytes_eq, if_pos hout, raise_eq]

/-- A byte of the written prefix is answered, and a draw is taken for it unless it is wholly below the high-water mark. -/
theorem execBwrdb_ok {addr : Data} {s : State} (hin : addr.toNat < (s.bwHighWaterBits.toNat + 7) / 8)
    (hsize : s.bwHighWaterBits.toNat ≤ 8 * s.storageBytes) :
    execBwrdb addr s = .next ((if 8 * addr.toNat + 8 ≤ s.bwHighWaterBits.toNat then s else s.drawn).gave
      ⟨.ok, 0, zext64 (bwReadByte s addr.toNat).1⟩) := by
  have hinside : ¬ s.storageBytes ≤ addr.toNat := by omega
  rw [execBwrdb, State.bwPrefixBytes_eq, if_neg (Nat.not_le.2 hin), if_neg hinside]
  dsimp only
  rw [respond_eq, bwReadByte_drawn]
  by_cases hwhole : 8 * addr.toNat + 8 ≤ s.bwHighWaterBits.toNat <;> simp [hwhole]

theorem zext64_byte_lt (b : Byte) : (zext64 b).toNat < 256 := by
  rw [zext64, BitVec.toNat_setWidth]
  exact (Nat.mod_le _ _).trans_lt b.isLt

/-- Settles O32, bit by bit of the returned byte; the state after it is `s`, with the next draw where there are pad bits. -/
theorem bwrdbResult : Obligations.BwrdbResult := by
  refine ⟨fun w hop => by rw [decode, hop]; rfl, fun addr s => ⟨execBwrdb_overflow, fun hin hsize => ?_⟩⟩
  refine ⟨_, zext64 (bwReadByte s addr.toNat).1, execBwrdb_ok hin hsize, ?_, zext64_byte_lt _,
    fun j hj hspec b hb => ?_, fun j hj hpad => ⟨?_, ?_⟩, fun hwhole => ?_, ?_⟩
  · split <;> rfl
  · rw [zext64_getLsbD_byte, bwReadByte_getLsbD_bitAt s _ hj, if_pos hspec, hb, Option.getD_some]
  · rw [zext64_getLsbD_byte, bwReadByte_getLsbD_bitAt s _ hj, if_neg (Nat.not_lt.2 hpad)]
  · rw [if_neg (by omega)]
    rfl
  · rw [if_pos hwhole]
    rfl
  · split <;> exact ⟨⟨rfl, rfl, rfl, rfl⟩, ⟨rfl, rfl, rfl, rfl⟩, ⟨rfl, rfl⟩, rfl, rfl⟩

/-! ### Fields one after another (R64, R27) -/

/-- A step on a WRBITS64 that fits. -/
theorem step_wrbits64 {s : State} {n : Byte} {v : BitVec 64} {es : List HostEvent}
    (hp : s.pending = .command (encode (.wrbits64 n v)) :: es) (hn : n.toNat ≤ 64)
    (hfits : s.bwCursorBits.toNat + n.toNat ≤ s.bwCapacityBits.toNat)
    (hcap : s.bwCapacityBits.toNat ≤ 8 * s.storageBytes) :
    step s = .next (((s.withPending es).bwAdvance n.toNat v).gave ⟨.ok, 0, 0⟩) :=
  (step_of_command hp (decodeEncodeRoundTrip _)).trans (bwWrite_ok hn hfits hcap)

/-- Settles O33, by induction on the fields: each write leaves its successors what they need of R15 and the capacity. -/
theorem writesPackBackToBack : Obligations.WritesPackBackToBack := by
  intro fields
  induction fields with
  | nil => exact fun s _ _ _ hp => ⟨s, rfl, rfl, (List.append_nil _).symm, hp⟩
  | cons f fields ih =>
    intro s hs hwidths hfits hp
    have ⟨_, hcap, _, _⟩ := hs
    obtain ⟨hf, hwidths⟩ := List.forall_mem_cons.1 hwidths
    rw [totalBits, ← Nat.add_assoc] at hfits
    have hfirst : s.bwCursorBits.toNat + f.1.toNat ≤ s.bwCapacityBits.toNat := le_of_add_le_left hfits
    have hcursor := bwAdvance_cursor_toNat (s := s) f.2 hfirst
    obtain ⟨t, hrun, htcursor, hresponses, hpending⟩ :=
      ih (((s.withPending (presentWrites fields)).bwAdvance f.1.toNat f.2).gave ⟨.ok, 0, 0⟩)
        (writerInv_bwAdvance (s := s) f.2 hs hfirst) hwidths (hcursor ▸ hfits) rfl
    refine ⟨t, (run_succ _ (step_wrbits64 hp hf hfirst hcap)).trans hrun, ?_, ?_, hpending⟩
    · rw [htcursor, totalBits, ← Nat.add_assoc]
      exact congrArg (· + totalBits fields) hcursor
    · rw [hresponses, List.length_cons, List.replicate_succ]
      exact List.append_assoc _ _ _

/-! ### A field carried over to the reader (R64) -/

/-- Extraction where the storage holds the low `n` bits of a number returns that number modulo `2^n`. -/
theorem fieldExtract_eq_mod_two_pow {f : Nat → Byte} {c n x : Nat}
    (hbits : ∀ j < n, arrayBit f (c + j) = x.testBit j) : fieldExtract f c n = x % 2 ^ n := by
  refine Nat.eq_of_testBit_eq fun j => ?_
  rw [fieldExtract_testBit, Nat.testBit_mod_two_pow]
  by_cases hj : j < n
  · rw [hbits j hj]
  · simp [hj]

/-- A field in the written prefix is what the reader's bytes give at its position, whatever the pad bits carried over. -/
theorem CarriedOver.fieldExtract_eq_mod {t u : State} {c n x : Nat} (hcarried : CarriedOver t u)
    (hmark : c + n ≤ t.bwHighWaterBits.toNat) (hfield : ∀ j < n, t.bwMem.bitAt (c + j) = some (x.testBit j)) :
    fieldExtract u.brByte c n = x % 2 ^ n :=
  fieldExtract_eq_mod_two_pow fun j hj => hcarried _ (by omega) _ (hfield j hj)

/-- Settles O39: the bits of the field are below the new high-water mark, so they are carried over and read. -/
theorem bitBufferRoundTrip : Obligations.BitBufferRoundTrip := by
  rintro n v s s' u ⟨-, hcap, -, -⟩ ⟨-, hlen⟩ hn hfits hwrite hcarried hcursor hreadable
  obtain ⟨t, ht, ⟨hfield, -, -⟩, -, -, hhigh, -⟩ := bwWrite_result v hn hfits hcap
  obtain rfl : t = s' := by injection ht.symm.trans hwrite
  have hmark : s.bwCursorBits.toNat + n.toNat ≤ t.bwHighWaterBits.toNat := hhigh ▸ le_max_right _ _
  rw [← hcursor] at hreadable hmark hfield
  refine ⟨_, _, brRead_ok hn hreadable hlen, rfl, ?_⟩
  have hlt : v.toNat % 2 ^ n.toNat < 2 ^ 64 := (Nat.mod_le _ _).trans_lt v.isLt
  rw [hcarried.fieldExtract_eq_mod hmark hfield, BitVec.toNat_ofNat, Nat.mod_eq_of_lt hlt]

end Sys2Proof.Machine

/-! The BitReader commands (42_bitreader.md): what each answers and leaves unchanged, and that reads with the writer's bit
counts return the written values (R65 to R71). -/

namespace Sys2Proof.Machine

/-! ### A session and its cursor (R66, R70) -/

theorem execBrnew_overflow {len : Data} {s : State} (hlen : 8 * s.storageBytes < len.toNat) :
    execBrnew len s = .next (s.gave ⟨.error .overflow, 0, 0⟩) := by
  rw [execBrnew, if_pos hlen, raise_eq]

theorem execBrnew_ok {len : Data} {s : State} (hlen : len.toNat ≤ 8 * s.storageBytes) :
    execBrnew len s = .next ((s.brSession (toPos len.toNat)).gave ⟨.ok, 0, 0⟩) := by
  rw [execBrnew, if_neg (Nat.not_lt.2 hlen), respond_eq]

/-- The length of a session inside a storage of legal size fits its position register (R6, R17). -/
theorem toPos_length_toNat {s : State} (hsize : SizeLegal s) {len : Nat} (hlen : len ≤ 8 * s.storageBytes) :
    (toPos len).toNat = len := by
  obtain ⟨-, hmax⟩ := hsize
  rw [Config.maxStorageBytes] at hmax
  exact toNat_ofNat_pos (by omega)

/-- Settles O34, by the two answers of BRNEW. -/
theorem brnewResult : Obligations.BrnewResult := by
  refine ⟨fun w hop => by rw [decode, hop]; rfl, fun len s hsize => ⟨execBrnew_overflow, fun hlen => ?_⟩⟩
  exact ⟨_, execBrnew_ok hlen, toPos_length_toNat hsize hlen, rfl, rfl, rfl, ⟨rfl, rfl, rfl, rfl⟩, ⟨rfl, rfl⟩,
    ⟨rfl, rfl⟩, rfl, rfl⟩

theorem execBrseek_overflow {pos : Data} {s : State} (hpos : s.brLengthBits.toNat < pos.toNat) :
    execBrseek pos s = .next (s.gave ⟨.error .overflow, 0, 0⟩) := by
  rw [execBrseek, if_pos hpos, raise_eq]

theorem execBrseek_ok {pos : Data} {s : State} (hpos : pos.toNat ≤ s.brLengthBits.toNat) :
    execBrseek pos s = .next ((s.brMoveTo pos.toNat).gave ⟨.ok, 0, 0⟩) := by
  rw [execBrseek, if_neg (Nat.not_lt.2 hpos), respond_eq]

/-- A position inside the session fits the cursor. -/
theorem brMoveTo_cursor_toNat {s : State} {p : Nat} (hp : p ≤ s.brLengthBits.toNat) :
    (s.brMoveTo p).brCursorBits.toNat = p :=
  toNat_ofNat_pos (hp.trans_lt s.brLengthBits.isLt)

/-- Settles O35, by the two answers of BRSEEK. -/
theorem brseekResult : Obligations.BrseekResult := by
  refine ⟨fun w hop => by rw [decode, hop]; rfl, fun pos s => ⟨execBrseek_overflow, fun hpos => ?_⟩⟩
  exact ⟨_, execBrseek_ok hpos, brMoveTo_cursor_toNat hpos, rfl, rfl, rfl, ⟨rfl, rfl, rfl, rfl⟩, ⟨rfl, rfl⟩,
    ⟨rfl, rfl⟩, rfl, rfl⟩

/-! ### Loading a byte (R67) -/

theorem execBrldb_overflow {addr : Data} {byte : Byte} {s : State} (haddr : s.storageBytes ≤ addr.toNat) :
    execBrldb addr byte s = .next (s.gave ⟨.error .overflow, 0, 0⟩) := by
  rw [execBrldb, if_pos haddr, raise_eq]

theorem execBrldb_ok {addr : Data} {byte : Byte} {s : State} (haddr : addr.toNat < s.storageBytes) :
    execBrldb addr byte s = .next ((s.brLoad addr.toNat byte).gave ⟨.ok, 0, 0⟩) := by
  rw [execBrldb, if_neg (Nat.not_le.2 haddr), respond_eq]

/-- A loaded byte reads as loaded, and every other byte, free ones included, as before. -/
theorem brLoad_brByte (s : State) (a : Nat) (byte : Byte) (x : Nat) :
    (s.brLoad a byte).brByte x = if a = x then byte else s.brByte x := by
  rw [State.brByte, Memory.byteAt, State.brLoad_brMem, Memory.read_write]
  split <;> rfl

/-- Settles O38, by the two answers of BRLDB and what the storage reads as after a write. -/
theorem brldbResult : Obligations.BrldbResult := by
  refine ⟨fun w hop => by rw [decode, hop]; rfl, fun addr byte s => ⟨execBrldb_overflow, fun haddr => ?_⟩⟩
  refine ⟨_, execBrldb_ok haddr, ?_, ?_, fun a ha => ⟨?_, ?_⟩, rfl, rfl, ⟨rfl, rfl, rfl, rfl⟩, ⟨rfl, rfl⟩, ⟨rfl, rfl⟩,
    rfl, rfl⟩
  · exact (Memory.read_write ..).trans (if_pos rfl)
  · exact (brLoad_brByte ..).trans (if_pos rfl)
  · exact (Memory.read_write ..).trans (if_neg ha.symm)
  · exact (brLoad_brByte ..).trans (if_neg ha.symm)

/-! ### Reading a field (R65, R68, R69) -/

theorem brRead_overflow {w : Nat} {n : Byte} {s : State} (hn : w < n.toNat) :
    brRead w n s = .next (s.gave ⟨.error .overflow, 0, 0⟩) := by
  rw [brRead, if_pos hn, raise_eq]

theorem brRead_eof {w : Nat} {n : Byte} {s : State} (hn : n.toNat ≤ w)
    (hpast : s.brLengthBits.toNat < s.brCursorBits.toNat + n.toNat) :
    brRead w n s = .next (s.gave ⟨.error .eof, 0, 0⟩) := by
  rw [brRead, if_neg (Nat.not_lt.2 hn), if_pos hpast, raise_eq]

/-- The bits of a field as the `result` carries it: those of the storage, and 0 above (R41, R53). -/
theorem fieldExtract_result_getLsbD (f : Nat → Byte) (c : Nat) {n : Nat} (hn : n ≤ 64) (j : Nat) :
    (BitVec.ofNat 64 (fieldExtract f c n)).getLsbD j = (decide (j < n) && arrayBit f (c + j)) := by
  rw [BitVec.getLsbD_ofNat, fieldExtract_testBit]
  by_cases hj : j < n
  · rw [decide_eq_true (hj.trans_le hn), Bool.true_and]
  · rw [decide_eq_false hj, Bool.false_and, Bool.and_false]

theorem fieldExtract_result_lt (f : Nat → Byte) (c n : Nat) :
    (BitVec.ofNat 64 (fieldExtract f c n)).toNat < 2 ^ n := by
  rw [BitVec.toNat_ofNat]
  exact (Nat.mod_le _ _).trans_lt (fieldExtract_lt f c n)

/-- `BRRead` of a field inside the session, at any type width that a result can have (R65). -/
theorem brRead_result {w : Nat} (hw : w ≤ 64) {n : Byte} {s : State} (hn : n.toNat ≤ w)
    (hin : s.brCursorBits.toNat + n.toNat ≤ s.brLengthBits.toNat)
    (hlen : s.brLengthBits.toNat ≤ 8 * s.storageBytes) :
    ∃ t, ∃ r : Data, brRead w n s = .next t ∧
      (∀ j, r.getLsbD j = (decide (j < n.toNat) && arrayBit s.brByte (s.brCursorBits.toNat + j))) ∧
      r.toNat < 2 ^ n.toNat ∧ t.brCursorBits.toNat = s.brCursorBits.toNat + n.toNat ∧
      t.brLengthBits = s.brLengthBits ∧ t.brMem = s.brMem ∧ t.brImage = s.brImage ∧
      SameBW s t ∧ SamePorts s t ∧ SameHost s t ∧ t.draws = s.draws ∧ Answered s t ⟨.ok, 0, r⟩ :=
  ⟨_, _, brRead_ok hn hin hlen, fieldExtract_result_getLsbD _ _ (hn.trans hw), fieldExtract_result_lt _ _ _,
    brMoveTo_cursor_toNat hin, rfl, rfl, rfl, ⟨rfl, rfl, rfl, rfl⟩, ⟨rfl, rfl⟩, ⟨rfl, rfl⟩, rfl, rfl⟩

/-- Settles O36: the three answers of `BRRead` at type width 32. -/
theorem rdbits32Result : Obligations.Rdbits32Result :=
  ⟨fun w hop => by rw [decode, hop]; rfl, fun _ _ => ⟨brRead_overflow, brRead_eof, brRead_result (by decide)⟩⟩

/-- `BRRead` at two type widths that both hold the field. -/
theorem brRead_congr {w w' : Nat} {n : Byte} (s : State) (hn : n.toNat ≤ w) (hn' : n.toNat ≤ w') :
    brRead w n s = brRead w' n s := by
  rw [brRead, brRead, if_neg (Nat.not_lt.2 hn), if_neg (Nat.not_lt.2 hn')]

/-- Settles O37: as O36 at type width 64, and the width does not matter where both hold the field. -/
theorem rdbits64Result : Obligations.Rdbits64Result :=
  ⟨fun w hop => by rw [decode, hop]; rfl, fun _ s => ⟨brRead_overflow, brRead_eof, brRead_result le_rfl,
    fun hn => brRead_congr s (hn.trans (by decide)) hn⟩⟩

/-! ### Fields written one after another and read back (R71) -/

/-- The host is about to present one WRBITS64 for each field, and they all fit the writer's session. -/
structure WritesPresented (fields : List (Byte × BitVec 64)) (s : State) : Prop where
  inv : WriterInv s
  widths : ∀ f ∈ fields, f.1.toNat ≤ 64
  fits : s.bwCursorBits.toNat + totalBits fields ≤ s.bwCapacityBits.toNat
  pending : s.pending = presentWrites fields

/-- The host is about to present one RDBITS64 for each field, and they all lie inside the reader's session. -/
structure ReadsPresented (fields : List (Byte × BitVec 64)) (u : State) : Prop where
  inv : ReaderInv u
  widths : ∀ f ∈ fields, f.1.toNat ≤ 64
  inside : u.brCursorBits.toNat + totalBits fields ≤ u.brLengthBits.toNat
  pending : u.pending = presentReads fields

/-- The state after the WRBITS64 of `f`, with those of `fields` still to come. -/
def State.wroteField (s : State) (f : Byte × BitVec 64) (fields : List (Byte × BitVec 64)) : State :=
  ((s.withPending (presentWrites fields)).bwAdvance f.1.toNat f.2).gave ⟨.ok, 0, 0⟩

/-- The state after the RDBITS64 of `f` was answered `r`, with those of `fields` still to come. -/
def State.readField (u : State) (f : Byte × BitVec 64) (fields : List (Byte × BitVec 64)) (r : Data) : State :=
  ((u.withPending (presentReads fields)).brMoveTo (u.brCursorBits.toNat + f.1.toNat)).gave ⟨.ok, 0, r⟩

section FieldSequence

variable {f : Byte × BitVec 64} {fields : List (Byte × BitVec 64)} {s s' u : State}

theorem WritesPresented.first_fits (h : WritesPresented (f :: fields) s) :
    s.bwCursorBits.toNat + f.1.toNat ≤ s.bwCapacityBits.toNat := by
  have hfits := h.fits
  rw [totalBits] at hfits
  omega

theorem ReadsPresented.first_inside (h : ReadsPresented (f :: fields) u) :
    u.brCursorBits.toNat + f.1.toNat ≤ u.brLengthBits.toNat := by
  have hinside := h.inside
  rw [totalBits] at hinside
  omega

theorem WritesPresented.wroteField_cursor (h : WritesPresented (f :: fields) s) :
    (s.wroteField f fields).bwCursorBits.toNat = s.bwCursorBits.toNat + f.1.toNat :=
  bwAdvance_cursor_toNat f.2 h.first_fits

theorem ReadsPresented.readField_cursor (h : ReadsPresented (f :: fields) u) (r : Data) :
    (u.readField f fields r).brCursorBits.toNat = u.brCursorBits.toNat + f.1.toNat :=
  brMoveTo_cursor_toNat (s := u) h.first_inside

/-- The first write is answered Ok and leaves the others what they need. -/
theorem WritesPresented.step_first (h : WritesPresented (f :: fields) s) :
    step s = .next (s.wroteField f fields) ∧ WritesPresented fields (s.wroteField f fields) := by
  obtain ⟨hf, hwidths⟩ := List.forall_mem_cons.1 h.widths
  have ⟨_, hcap, _, _⟩ := h.inv
  refine ⟨step_wrbits64 h.pending hf h.first_fits hcap,
    writerInv_bwAdvance (s := s) f.2 h.inv h.first_fits, hwidths, ?_, rfl⟩
  rw [h.wroteField_cursor, Nat.add_assoc]
  exact h.fits

/-- The first read is answered Ok with the field at the cursor, and leaves the others what they need. -/
theorem ReadsPresented.step_first (h : ReadsPresented (f :: fields) u) {x : Nat}
    (hx : fieldExtract u.brByte u.brCursorBits.toNat f.1.toNat = x) :
    step u = .next (u.readField f fields (BitVec.ofNat 64 x)) ∧
      ReadsPresented fields (u.readField f fields (BitVec.ofNat 64 x)) := by
  obtain ⟨hf, hwidths⟩ := List.forall_mem_cons.1 h.widths
  have ⟨_, hlen⟩ := h.inv
  subst hx
  refine ⟨(step_of_command h.pending (decodeEncodeRoundTrip _)).trans (brRead_ok hf h.first_inside hlen),
    readerInv_brMoveTo (s := u) h.inv h.first_inside, hwidths, ?_, rfl⟩
  rw [h.readField_cursor, Nat.add_assoc]
  exact h.inside

/-- What agrees with the written prefix after a write agrees with the prefix before it. -/
theorem CarriedOver.of_wroteField (h : WritesPresented (f :: fields) s)
    (hcarried : CarriedOver (s.wroteField f fields) u) : CarriedOver s u := by
  have ⟨_, _, _, hhigh⟩ := h.inv
  have hmark : (s.wroteField f fields).bwHighWaterBits.toNat = max _ _ := bwAdvance_highWater_toNat f.2 h.first_fits
  refine fun p hp b hb => hcarried p (hmark ▸ lt_max_of_lt_left hp) b ?_
  exact fieldInsert_bitAt_keep _ _ _ _ _ _ (.inl (hhigh ▸ hp)) hb

/-- What agrees with the written prefix after any more writes agrees with the prefix before them. -/
theorem CarriedOver.of_run_writes (h : WritesPresented fields s)
    (hrun : Host.Core.run core fields.length s = .next s') (hcarried : CarriedOver s' u) : CarriedOver s u := by
  induction fields generalizing s with
  | nil => cases hrun; exact hcarried
  | cons f fields ih =>
    obtain ⟨hstep, hrest⟩ := h.step_first
    exact (ih hrest ((run_succ _ hstep).symm.trans hrun)).of_wroteField h

/-- The reader holds the field just written, at the position it was written to. -/
theorem CarriedOver.fieldExtract_wroteField (h : WritesPresented (f :: fields) s)
    (hcarried : CarriedOver (s.wroteField f fields) u) :
    fieldExtract u.brByte s.bwCursorBits.toNat f.1.toNat = f.2.toNat % 2 ^ f.1.toNat :=
  hcarried.fieldExtract_eq_mod ((bwAdvance_highWater_toNat f.2 h.first_fits).ge.trans' (le_max_right _ _))
    (fieldInsert_bitAt s.bwMem _ f.2 _)

/-- Reads of the fields that were written, from where they were written, return the written values masked to their widths:
the writes after a field's own leave it in the written prefix, so the reader holds it, and each read moves the reader's
cursor as the write moved the writer's. -/
theorem run_reads_of_run_writes (hw : WritesPresented fields s) (hr : ReadsPresented fields u)
    (hrun : Host.Core.run core fields.length s = .next s') (hcarried : CarriedOver s' u)
    (hcursor : u.brCursorBits = s.bwCursorBits) :
    ∃ t, Host.Core.run core fields.length u = .next t ∧
      t.responses = u.responses ++ fields.map fun f => ⟨.ok, 0, BitVec.ofNat 64 (f.2.toNat % 2 ^ f.1.toNat)⟩ := by
  induction fields generalizing s u with
  | nil => exact ⟨u, rfl, (List.append_nil _).symm⟩
  | cons f fields ih =>
    obtain ⟨hwstep, hwrest⟩ := hw.step_first
    have hrun' := (run_succ _ hwstep).symm.trans hrun
    have hfield := (hcarried.of_run_writes hwrest hrun').fieldExtract_wroteField hw
    obtain ⟨hrstep, hrrest⟩ := hr.step_first (hcursor ▸ hfield)
    have hcursor' : (u.readField f fields (BitVec.ofNat 64 (f.2.toNat % 2 ^ f.1.toNat))).brCursorBits =
        (s.wroteField f fields).bwCursorBits := by
      rw [← BitVec.toNat_inj, hr.readField_cursor, hw.wroteField_cursor, hcursor]
    obtain ⟨t, ht, hresponses⟩ := ih (u := u.readField f fields _) hwrest hrrest hrun' hcarried hcursor'
    exact ⟨t, (run_succ _ hrstep).trans ht, hresponses.trans (List.append_assoc _ _ _)⟩

end FieldSequence

/-- Settles O40: the writer's fields and the reader's are the same list at the same position. -/
theorem fieldSequenceRoundTrip : Obligations.FieldSequenceRoundTrip :=
  fun _ _ _ _ hs hu hwidths hfits hwrites hrun hcarried hcursor hinside hreads =>
    run_reads_of_run_writes ⟨hs, hwidths, hfits, hwrites⟩ ⟨hu, hwidths, hcursor ▸ hinside, hreads⟩ hrun hcarried hcursor

end Sys2Proof.Machine

/-! Zigzag (43_zigzag.md): the mapping as arithmetic on the number and on its code, at any width (R72, R77), and the ZZ
commands (R73 to R76, R78). -/

namespace Sys2Proof.Machine

/-! ### The code of a number (R72, R77 (a)) -/

theorem zigzagNumber_cast (v : Int) : (zigzagNumber v : Int) = if 0 ≤ v then 2 * v else -2 * v - 1 := by
  rw [zigzagNumber]
  exact Int.toNat_of_nonneg (by split <;> omega)

/-- A smaller magnitude has a smaller number beside it (R77 (d)). -/
theorem zigzagNumber_lt {v v' : Int} (h : v.natAbs < v'.natAbs) : zigzagNumber v < zigzagNumber v' := by
  have hv := zigzagNumber_cast v
  have hv' := zigzagNumber_cast v'
  split at hv <;> split at hv' <;> omega

/-- The sign fill of `n >>a (W-1)` is 0 where the number is not negative, so the XOR leaves the shifted bits. -/
theorem zigzagEnc_of_msb_false {w : Nat} {x : BitVec w} (hx : x.msb = false) : zigzagEnc x = x <<< 1 := by
  refine BitVec.eq_of_getLsbD_eq fun i hi => ?_
  rw [zigzagEnc_getLsbD x hi, hx, Bool.xor_false, BitVec.getLsbD_shiftLeft]
  by_cases h0 : i = 0 <;> simp [h0, hi]

/-- The sign fill is all ones where the number is negative, so the XOR complements the shifted bits. -/
theorem zigzagEnc_of_msb_true {w : Nat} {x : BitVec w} (hx : x.msb = true) : zigzagEnc x = ~~~(x <<< 1) := by
  refine BitVec.eq_of_getLsbD_eq fun i hi => ?_
  rw [zigzagEnc_getLsbD x hi, hx, Bool.xor_true, BitVec.getLsbD_not, BitVec.getLsbD_shiftLeft]
  by_cases h0 : i = 0 <;> simp [h0, hi, Nat.zero_lt_of_lt hi]

/-- R77 (a): the shift doubles a number that is not negative; a negative one loses its sign bit in the shift, and the
complement counts down from the largest code. -/
theorem zigzagEnc_toNat {w : Nat} (x : BitVec w) : (zigzagEnc x).toNat = zigzagNumber x.toInt := by
  have hlt := x.isLt
  have hcast := zigzagNumber_cast x.toInt
  rw [BitVec.toInt_eq_toNat_cond] at hcast ⊢
  cases hx : x.msb with
  | false =>
    have hhalf := BitVec.msb_eq_false_iff_two_mul_lt.1 hx
    rw [zigzagEnc_of_msb_false hx, BitVec.toNat_shiftLeft, Nat.shiftLeft_eq, Nat.mod_eq_of_lt (by omega)]
    rw [if_pos hhalf] at hcast ⊢
    omega
  | true =>
    have hhalf := BitVec.msb_eq_true_iff_two_mul_ge.1 hx
    rw [zigzagEnc_of_msb_true hx, BitVec.toNat_not, BitVec.toNat_shiftLeft, Nat.shiftLeft_eq,
      Nat.mod_eq_sub_mod (by omega), Nat.mod_eq_of_lt (by omega)]
    rw [if_neg (Nat.not_lt.2 hhalf)] at hcast ⊢
    omega

theorem zigzagEnc_toNat_cast {w : Nat} (x : BitVec w) :
    ((zigzagEnc x).toNat : Int) = if 0 ≤ x.toInt then 2 * x.toInt else -2 * x.toInt - 1 := by
  rw [zigzagEnc_toNat, zigzagNumber_cast]

/-! ### The number of a code (R72, R77 (b)) -/

theorem zigzagDec_of_even {w : Nat} {u : BitVec w} (hu : u.toNat % 2 = 0) : zigzagDec u = u >>> 1 := by
  have h0 : u.getLsbD 0 = false := by simp [BitVec.getLsbD, hu]
  refine BitVec.eq_of_getLsbD_eq fun i hi => ?_
  rw [zigzagDec_getLsbD u hi, h0, Bool.xor_false, BitVec.getLsbD_ushiftRight, Nat.add_comm]

theorem zigzagDec_of_odd {w : Nat} {u : BitVec w} (hu : u.toNat % 2 = 1) : zigzagDec u = ~~~(u >>> 1) := by
  have h0 : u.getLsbD 0 = true := by simp [BitVec.getLsbD, hu]
  refine BitVec.eq_of_getLsbD_eq fun i hi => ?_
  rw [zigzagDec_getLsbD u hi, h0, Bool.xor_true, BitVec.getLsbD_not, BitVec.getLsbD_ushiftRight, Nat.add_comm]
  simp [hi]

/-- R77 (b): half of an even code is in the lower half of the patterns; the complement of half of an odd one is negative. -/
theorem zigzagDec_toInt {w : Nat} (u : BitVec w) :
    (zigzagDec u).toInt = if u.toNat % 2 = 0 then (u.toNat / 2 : Int) else -((u.toNat + 1) / 2 : Int) := by
  have hlt := u.isLt
  rw [BitVec.toInt_eq_toNat_cond]
  obtain hu | hu := Nat.mod_two_eq_zero_or_one u.toNat
  · rw [if_pos hu, zigzagDec_of_even hu, BitVec.toNat_ushiftRight, Nat.shiftRight_eq_div_pow, if_pos (by omega)]
    omega
  · rw [if_neg (Nat.mod_two_ne_zero.2 hu), zigzagDec_of_odd hu, BitVec.toNat_not, BitVec.toNat_ushiftRight,
      Nat.shiftRight_eq_div_pow, if_neg (by omega)]
    omega

/-! ### The mapping is a bijection (R77 (c)) -/

theorem zigzagDec_zigzagEnc {w : Nat} (v : BitVec w) : zigzagDec (zigzagEnc v) = v := by
  have hcode := zigzagEnc_toNat_cast v
  rw [← BitVec.toInt_inj, zigzagDec_toInt]
  split at hcode <;> split <;> omega

theorem zigzagEnc_zigzagDec {w : Nat} (u : BitVec w) : zigzagEnc (zigzagDec u) = u := by
  have hcode := zigzagEnc_toNat_cast (zigzagDec u)
  rw [zigzagDec_toInt] at hcode
  rw [← BitVec.toNat_inj]
  split at hcode <;> split at hcode <;> omega

/-- Settles O43, at every width at once. -/
theorem zigzagIsBijection : Obligations.ZigzagIsBijection :=
  ⟨fun v => ⟨zigzagDec_zigzagEnc v, zigzagEnc_zigzagDec v⟩, fun v => ⟨zigzagDec_zigzagEnc v, zigzagEnc_zigzagDec v⟩⟩

theorem zigzagEnc_lt_of_natAbs_lt {w : Nat} {v v' : BitVec w} (h : v.toInt.natAbs < v'.toInt.natAbs) :
    (zigzagEnc v).toNat < (zigzagEnc v').toNat := by
  rw [zigzagEnc_toNat, zigzagEnc_toNat]
  exact zigzagNumber_lt h

/-- Settles O44, by the order of the numbers beside the codes. -/
theorem zigzagKeepsMagnitudeOrder : Obligations.ZigzagKeepsMagnitudeOrder :=
  ⟨fun _ _ => zigzagEnc_lt_of_natAbs_lt, fun _ _ => zigzagEnc_lt_of_natAbs_lt⟩

/-! ### The ZZ commands (R73 to R76) -/

/-- A 32-bit result in the `result` field, its upper half 0 (R41). -/
theorem zext64_eq_ofNat {w : Nat} (v : BitVec w) : zext64 v = BitVec.ofNat 64 v.toNat := (BitVec.ofNat_toNat 64 v).symm

/-- Settles O41, by the closed form of the code. -/
theorem zigzagEncodeResult : Obligations.ZigzagEncodeResult := by
  refine ⟨fun w hop => by rw [decode, hop]; rfl, fun w hop => by rw [decode, hop]; rfl,
    fun x s => ⟨zigzagEnc x, rfl, zigzagEnc_toNat_cast x, ?_⟩, fun x s => ⟨zigzagEnc x, rfl, zigzagEnc_toNat_cast x, rfl⟩⟩
  rw [exec, execZzenc32, zext64_eq_ofNat, respond_eq, State.gave]

/-- Settles O42, by the closed form of the decoded number. -/
theorem zigzagDecodeResult : Obligations.ZigzagDecodeResult := by
  refine ⟨fun w hop => by rw [decode, hop]; rfl, fun w hop => by rw [decode, hop]; rfl,
    fun u s => ⟨zigzagDec u, rfl, zigzagDec_toInt u, ?_⟩, fun u s => ⟨zigzagDec u, rfl, zigzagDec_toInt u, rfl⟩⟩
  rw [exec, execZzdec32, zext64_eq_ofNat, respond_eq, State.gave]

/-! ### What the commands depend on (R78) -/

/-- The answer of a ZZ command is chosen before the state is looked at. -/
theorem exec_zz {i : Instr} (hunit : unitOf i = .zz) : ∃ r, ∀ s, exec i s = respond r 0 s := by
  cases i with
  | zzenc32 | zzenc64 | zzdec32 | zzdec64 => exact ⟨_, fun _ => rfl⟩
  | _ => cases hunit

/-- A decode that gives the value itself, and the same decode with the value put through `f`: the run of the loop is the
same, and the `result` field holds the whole value where `w ≤ 64`. -/
theorem uvarintDecode_of_id {w : Nat} (hw : w ≤ 64) (f : BitVec w → BitVec w) {s t : State} {k : BitVec 8} {r : Data}
    (h : uvarintDecode (w := w) id s = .next t) (hans : Answered s t ⟨.ok, k, r⟩) :
    uvarintDecode f s = .next { t with responses := s.responses ++ [⟨.ok, k, zext64 (f (r.setWidth w))⟩] } := by
  rw [uvarintDecode] at h ⊢
  cases hrun : uvarintDecodeFrom (maxB w) 0 (0 : BitVec w) s.source with
  | value v n p =>
    rw [hrun] at h
    cases h
    obtain ⟨rfl, rfl⟩ : toCount n = k ∧ zext64 v = r := by simpa [Answered] using hans
    have hv : (zext64 v).setWidth w = v := by
      rw [zext64, BitVec.zeroExtend, BitVec.setWidth_setWidth_of_le _ hw, BitVec.setWidth_eq]
    rw [hv]
    rfl
  | failed e p =>
    rw [hrun] at h
    cases h
    simp [Answered] at hans
  | neverAnswered =>
    rw [hrun] at h
    cases h

/-- Settles O45: `exec_zz` for the ZZ commands; the signed varint commands run the same loops as the unsigned ones. -/
theorem zigzagCommandsAreStateless : Obligations.ZigzagCommandsAreStateless := by
  refine ⟨fun i hunit => exec_zz hunit, fun x s => rfl, fun x s => rfl,
    fun s t k r h hans => uvarintDecode_of_id (by omega) zigzagDec h hans, fun s t k r h hans => ?_⟩
  have hdec := uvarintDecode_of_id (by omega) zigzagDec h hans
  rwa [BitVec.setWidth_eq, zext64, BitVec.zeroExtend, BitVec.setWidth_eq] at hdec

end Sys2Proof.Machine

/-! Varint encode (44_varint_encode.md): the commands as one procedure on the number they encode (R82 to R86), the size law
(R80), and port failures of both varint units (R81, R93, R99). -/

namespace Sys2Proof.Machine

/-! ### The encoder on its sink (R81, R82) -/

theorem uvarintEncode_accepted {w : Nat} {u : BitVec w} {s : State} (hacc : SinkAccepts s.sink (uvarintBytes u).length) :
    uvarintEncode u s = .next ((s.withSink (sinkAfter s.sink (uvarintBytes u).length (uvarintBytes u))).gave
      ⟨.ok, toCount (uvarintBytes u).length, 0⟩) := by
  rw [uvarintEncode, putBytes_accepted hacc]
  rfl

theorem uvarintEncode_refused {w : Nat} {u : BitVec w} {s : State} {m : Nat} (hm : m < (uvarintBytes u).length)
    (hacc : SinkAccepts s.sink m) (hfail : sinkAnswerAt s.sink m = some .fail) :
    uvarintEncode u s = .next ((s.withSink (sinkAfter s.sink (m + 1) ((uvarintBytes u).take m))).gave
      ⟨.error .io, 0, 0⟩) := by
  rw [uvarintEncode, putBytes_failed hm hacc hfail]
  rfl

/-- A VE command is `UVarintEncode` of a word that holds its number (R83 to R86); for the signed commands that word is the
zigzag code. -/
theorem exec_of_veNumber {i : Instr} {u : Nat} (hi : veNumber i = some u) :
    ∃ (w : Nat) (x : BitVec w), 0 < w ∧ x.toNat = u ∧ exec i = uvarintEncode x := by
  cases i with
  | wruv32 x => cases hi; exact ⟨32, x, by decide, rfl, rfl⟩
  | wruv64 x => cases hi; exact ⟨64, x, by decide, rfl, rfl⟩
  | wrsv32 x => cases hi; exact ⟨32, zigzagEnc x, by decide, zigzagEnc_toNat x, rfl⟩
  | wrsv64 x => cases hi; exact ⟨64, zigzagEnc x, by decide, zigzagEnc_toNat x, rfl⟩
  | _ => cases hi

/-- A number has one varint, so whatever list is the varint of a command's number is what the command hands over. -/
theorem encodesTo_of_isVarint {i : Instr} {u : Nat} {bs : List Byte} (hi : veNumber i = some u) (hbs : IsVarint u bs)
    (s : State) : EncodesTo i bs s := by
  obtain ⟨w, x, hw, rfl, hexec⟩ := exec_of_veNumber hi
  obtain rfl := isVarint_unique hbs (uvarintBytes_isVarint hw x).1
  rw [EncodesTo, hexec]
  exact ⟨uvarintEncode_accepted, fun m => uvarintEncode_refused⟩

/-- Settles O46: the encoder's bytes are the varint of the operand. -/
theorem varintEncodeUnsignedResult : Obligations.VarintEncodeUnsignedResult := by
  refine ⟨fun w hop => by rw [decode, hop]; rfl, fun w hop => by rw [decode, hop]; rfl, fun u => ?_, fun u => ?_⟩
  all_goals
    obtain ⟨hvarint, hlen⟩ := uvarintBytes_isVarint (by decide) u
    exact ⟨uvarintBytes u, hvarint, hlen, encodesTo_of_isVarint rfl hvarint⟩

/-- What the encoder makes of the zigzag code is the varint of the number beside it (R77 (a), R85, R86). -/
theorem uvarintBytes_zigzagEnc_isVarint {w : Nat} (hw : 0 < w) (x : BitVec w) :
    IsVarint (zigzagNumber x.toInt) (uvarintBytes (zigzagEnc x)) ∧ (uvarintBytes (zigzagEnc x)).length ≤ maxB w := by
  rw [← zigzagEnc_toNat]
  exact uvarintBytes_isVarint hw _

/-- Settles O47: as O46, on the zigzag code of the operand. -/
theorem varintEncodeSignedResult : Obligations.VarintEncodeSignedResult := by
  refine ⟨fun w hop => by rw [decode, hop]; rfl, fun w hop => by rw [decode, hop]; rfl, fun x => ?_, fun x => ?_⟩
  all_goals
    obtain ⟨hvarint, hlen⟩ := uvarintBytes_zigzagEnc_isVarint (by decide) x
    exact ⟨uvarintBytes (zigzagEnc x), hvarint, hlen, encodesTo_of_isVarint rfl hvarint⟩

/-! ### The size law (R80) -/

theorem IsVarintLength.eq_one {u k : Nat} (hk : IsVarintLength u k) (hu : u < 128) : k = 1 :=
  isVarintLength_unique hk ⟨le_rfl, hu, fun h => absurd h (lt_irrefl 1)⟩

theorem IsVarintLength.le_of_lt {u k l : Nat} (hk : IsVarintLength u k) (hl : 0 < l) (hu : u < 2 ^ (7 * l)) : k ≤ l := by
  by_contra hlk
  have hlow : 2 ^ (7 * (k - 1)) ≤ u := hk.2.2 (by omega)
  exact absurd (hlow.trans_lt hu) (Nat.not_lt.2 (Nat.pow_le_pow_right (by decide) (by omega)))

/-- Where no further group is left, byte `k` holds all of the number from bit `7k` up, and has its flag clear. -/
theorem IsVarint.byte_toNat {u k : Nat} {bs : List Byte} {b : Byte} (hbs : IsVarint u bs) (hu : u < 2 ^ (7 * (k + 1)))
    (hb : bs[k]? = some b) : b.toNat = u / 2 ^ (7 * k) := by
  have hlen : bs.length ≤ k + 1 := hbs.1.le_of_lt k.succ_pos hu
  have hgroup : u / 2 ^ (7 * k) < 128 := by
    rw [Nat.mul_succ, pow_add] at hu
    exact Nat.div_lt_of_lt_mul hu
  rw [hbs.2 k b hb, Nat.mod_eq_of_lt hgroup, if_neg (Nat.not_lt.2 hlen), Nat.add_zero]

/-- Settles O48: the encoder's bytes are a varint, whose length is the least one; ten bytes need bit 63, the only bit that
a tenth group holds. -/
theorem varintSizeLaw : Obligations.VarintSizeLaw := by
  refine ⟨rfl, rfl, fun u => ?_, fun u => ?_⟩
  · obtain ⟨hvarint, hlen⟩ := uvarintBytes_isVarint (by decide) u
    refine ⟨hvarint.1, hlen, hvarint.1.eq_one, fun b hb => ?_⟩
    have hbyte : b.toNat = u.toNat / 2 ^ 28 := hvarint.byte_toNat (by omega) hb
    exact ⟨hbyte, by omega⟩
  · obtain ⟨hvarint, hlen⟩ := uvarintBytes_isVarint (by decide) u
    refine ⟨hvarint.1, hlen, hvarint.1.eq_one, fun b hb => ?_⟩
    have hbyte : b.toNat = u.toNat / 2 ^ 63 := hvarint.byte_toNat (by omega) hb
    have hten : (uvarintBytes u).length = 10 := le_antisymm hlen (List.getElem?_eq_some_iff.1 hb).1
    have hlow : 2 ^ 63 ≤ u.toNat := by simpa [hten] using hvarint.1.2.2
    exact BitVec.eq_of_toNat_eq (by simp; omega)

/-! ### Port failures (R81, R93, R99) -/

/-- A VD command is `UVarintDecode` at its type width, its value put through the identity or zigzag decode (R89 to R92). -/
theorem exec_of_vdWidth {i : Instr} {w : Nat} (hi : vdWidth i = some w) :
    ∃ f : BitVec w → BitVec w, exec i = uvarintDecode f := by
  cases i with
  | rduv32 | rduv64 => cases hi; exact ⟨id, rfl⟩
  | rdsv32 | rdsv64 => cases hi; exact ⟨zigzagDec, rfl⟩
  | _ => cases hi

/-- A VD command answers the error its loop ends with, and leaves the source as the loop does (R93). -/
theorem decodeEnds_of_failed {i : Instr} {w : Nat} {s : State} {e : ErrorKind} {calls bytes : Nat}
    (hi : vdWidth i = some w)
    (hrun : uvarintDecodeFrom (maxB w) 0 (0 : BitVec w) s.source = .failed e (srcAfter s.source calls bytes)) :
    DecodeEnds i s calls bytes ⟨.error e, 0, 0⟩ := by
  obtain ⟨f, hexec⟩ := exec_of_vdWidth hi
  rw [DecodeEnds, hexec, uvarintDecode, hrun]
  rfl

/-- Among the things a completed command can have done, only a VE or a VD command answers Io. -/
theorem Effect.unit_of_answered_io {i : Instr} {s t : State} {c : BitVec 8} {r : Data} (he : Effect i s t)
    (hans : Answered s t ⟨.error .io, c, r⟩) : unitOf i = .ve ∨ unitOf i = .vd := by
  cases he with
  | failed e hne => simp [Answered, hne] at hans
  | encoded p k hi | encodeFailed p hi => exact .inl hi
  | decoded p k r hi | decodeFailed p e hi => exact .inr hi
  | _ => simp [Answered] at hans

/-- Settles O53: the loop of R88 cut by a failure, the encoder's bytes cut by one, and what a completed command can have
done. -/
theorem portFailureIsIo : Obligations.PortFailureIsIo :=
  ⟨fun _ _ _ _ hi hflagged hlen hgives hfail =>
      decodeEnds_of_failed hi ((uvarintDecodeFrom_cut hflagged hlen hgives 0 0).2.1 hfail),
    fun _ _ s _ m hi hbs hm hacc hfail => (encodesTo_of_isVarint hi hbs s).2 m hm hacc hfail,
    fun _ _ _ _ _ h hans => (exec_effect h).unit_of_answered_io hans⟩

end Sys2Proof.Machine

/-! Varint decode (45_varint_decode.md): a terminated varint through the loop of R88 and the commands (R89 to R92, R94), and
the round trip through both varint units (R95). -/

namespace Sys2Proof.Machine

/-! ### A terminated varint (R88, R94) -/

/-- From an empty accumulator, the loop's value is the number the payload bits make, cut to the type width (R88). -/
theorem accumulateAll_zero {w : Nat} (bs : List Byte) : accumulateAll (0 : BitVec w) 0 bs = BitVec.ofNat w (payloadSum bs) :=
  BitVec.eq_of_toNat_eq (by
    rw [accumulateAll_toNat bs _ 0 (by simp), BitVec.toNat_ofNat]
    simp)

/-- A VD command consumes exactly the terminated varint and answers its value put through `f`; minimality plays no part
(R94). -/
theorem uvarintDecode_terminated {w : Nat} (f : BitVec w → BitVec w) {s : State} {bs : List Byte} (hbs : Terminated bs)
    (hlen : bs.length ≤ maxB w) (hgives : SourceGives s.source bs) :
    uvarintDecode f s = .next ((s.withSource (srcAfter s.source bs.length bs.length)).gave
      ⟨.ok, toCount bs.length, zext64 (f (BitVec.ofNat w (payloadSum bs)))⟩) := by
  rw [uvarintDecode, uvarintDecodeFrom_terminated hbs hlen hgives, accumulateAll_zero]
  rfl

/-- The unsigned commands answer the payload itself, zero-extended from the type width (R41, R89, R90). -/
theorem uvarintDecode_id_terminated {w : Nat} {s : State} {bs : List Byte} (hbs : Terminated bs) (hlen : bs.length ≤ maxB w)
    (hgives : SourceGives s.source bs) :
    uvarintDecode (w := w) id s = .next ((s.withSource (srcAfter s.source bs.length bs.length)).gave
      ⟨.ok, toCount bs.length, BitVec.ofNat 64 (payloadSum bs % 2 ^ w)⟩) := by
  rw [uvarintDecode_terminated id hbs hlen hgives, id, zext64_eq_ofNat, BitVec.toNat_ofNat]

/-- Settles O49: both widths are the same procedure. -/
theorem varintDecodeUnsignedResult : Obligations.VarintDecodeUnsignedResult :=
  ⟨fun w hop => by rw [decode, hop]; rfl, fun w hop => by rw [decode, hop]; rfl, fun _ _ hbs hgives =>
    ⟨fun hlen => uvarintDecode_id_terminated hbs hlen hgives, fun hlen => uvarintDecode_id_terminated hbs hlen hgives⟩⟩

/-- A 64-bit value is the whole `result` field (R41). -/
theorem zext64_data (v : Data) : zext64 v = v := BitVec.setWidth_eq v

/-- Settles O50: as O49, the value put through zigzag decode; at 64 bits the `result` field holds it as it is. -/
theorem varintDecodeSignedResult : Obligations.VarintDecodeSignedResult := by
  refine ⟨fun w hop => by rw [decode, hop]; rfl, fun w hop => by rw [decode, hop]; rfl, fun s bs hbs hgives =>
    ⟨fun hlen => uvarintDecode_terminated zigzagDec hbs hlen hgives, fun hlen => ?_⟩⟩
  have hdec := uvarintDecode_terminated (w := 64) zigzagDec hbs hlen hgives
  rwa [zext64_data] at hdec

/-! ### The round trip (R95) -/

/-- The encoder's bytes are a terminated varint within the decoder's bound, whose payload is the encoded word. -/
theorem uvarintDecode_uvarintBytes {w : Nat} (hw : 0 < w) (f : BitVec w → BitVec w) (x : BitVec w) {s : State}
    (hgives : SourceGives s.source (uvarintBytes x)) :
    uvarintDecode f s = .next ((s.withSource (srcAfter s.source (uvarintBytes x).length (uvarintBytes x).length)).gave
      ⟨.ok, toCount (uvarintBytes x).length, zext64 (f x)⟩) := by
  obtain ⟨hvarint, hlen⟩ := uvarintBytes_isVarint hw x
  rw [uvarintDecode_terminated f (terminated_of_isVarint hvarint) hlen hgives, payloadSum_of_isVarint hvarint,
    BitVec.ofNat_toNat, BitVec.setWidth_eq]

/-- Settles O55: each pair of commands encodes a word `x` and puts the decoded word through an `f` that makes it the operand,
which for the signed pairs is `zigzagDec_zigzagEnc`. -/
theorem varintRoundTrip : Obligations.VarintRoundTrip := by
  intro i d operand hpair s t hacc henc
  obtain ⟨w, x, f, hw, hmax, hi, hd, rfl⟩ : ∃ (w : Nat) (x : BitVec w) (f : BitVec w → BitVec w), 0 < w ∧ maxB w ≤ 10 ∧
      exec i = uvarintEncode x ∧ exec d = uvarintDecode f ∧ operand = zext64 (f x) := by
    obtain ⟨u, rfl, rfl, hop⟩ | ⟨u, rfl, rfl, hop⟩ | ⟨x, rfl, rfl, hop⟩ | ⟨x, rfl, rfl, hop⟩ := hpair
    · exact ⟨32, u, id, by decide, by decide, rfl, rfl, hop⟩
    · exact ⟨64, u, id, by decide, by decide, rfl, rfl, hop.trans (zext64_data u).symm⟩
    · exact ⟨32, zigzagEnc x, zigzagDec, by decide, by decide, rfl, rfl, by rw [zigzagDec_zigzagEnc, hop]; rfl⟩
    · exact ⟨64, zigzagEnc x, zigzagDec, by decide, by decide, rfl, rfl, by rw [zigzagDec_zigzagEnc, zext64_data, hop]⟩
  have hlen : (uvarintBytes x).length ≤ 10 := (uvarintBytes_isVarint hw x).2.trans hmax
  rw [hi, uvarintEncode_accepted fun j hj => hacc j (hj.trans_le hlen)] at henc
  cases henc
  refine ⟨uvarintBytes x, toCount (uvarintBytes x).length, rfl, rfl, fun s' hgives => ?_⟩
  rw [hd, uvarintDecode_uvarintBytes hw f x hgives]
  exact ⟨_, rfl, rfl, rfl⟩

end Sys2Proof.Machine

/-! The one error type and its answers (60_exceptions.md): the status codes (R97), what a failed command leaves as it was
(R98), and the streams on which a VD command fails by itself (R101, R103). -/

namespace Sys2Proof.Machine

/-! ### Status codes (R97) -/

theorem ErrorKind.code_toNat_lt (e : ErrorKind) : e.code.toNat < 7 := by
  cases e <;> decide

theorem Status.code_toNat_lt : ∀ st : Status, st.code.toNat < 7
  | .ok => by decide
  | .error e => e.code_toNat_lt

/-- Settles O7: the six kinds of error are all a status can be besides Ok. -/
theorem statusCodesAsListed : Obligations.StatusCodesAsListed :=
  ⟨rfl, rfl, rfl, rfl, rfl, rfl, rfl, Status.code_toNat_lt⟩

/-! ### A failed command (R98) -/

/-- A state answers one response, the one given last. -/
theorem Answered.eq_of_gave {s u : State} {r r' : Response} (hans : Answered s (u.gave r') r)
    (hu : u.responses = s.responses) : r = r' := by
  simpa [Answered, hu] using hans.symm

/-- Among the things a completed command can have done, those answered otherwise than Ok answer zeros and touch neither
bit unit. -/
theorem Effect.unchanged_of_failed {i : Instr} {s t : State} {r : Response} (he : Effect i s t) (hans : Answered s t r)
    (hr : r.status ≠ .ok) : r.count = 0 ∧ r.result = 0 ∧ SameBW s t ∧ SameBR s t ∧ t.draws = s.draws := by
  cases he with
  | failed | encodeFailed | decodeFailed =>
    obtain rfl := hans.eq_of_gave rfl
    exact ⟨rfl, rfl, ⟨rfl, rfl, rfl, rfl⟩, ⟨rfl, rfl, rfl, rfl⟩, rfl⟩
  | _ =>
    obtain rfl := hans.eq_of_gave rfl
    exact absurd rfl hr

/-- Settles O21: a legal word fails as `Effect.unchanged_of_failed` says, and an illegal one changes nothing but the
host's lists. -/
theorem failureLeavesBlockUnchanged : Obligations.FailureLeavesBlockUnchanged := by
  intro s t w es r hp h hans hr
  cases hd : decode w with
  | instr i =>
    have he : Effect i (s.withPending es) t := exec_effect (step_of_command hp hd ▸ h)
    obtain ⟨hcount, hresult, hbw, hbr, hdraws⟩ := he.unchanged_of_failed hans hr
    obtain ⟨hsize, hpending⟩ := he.sameHost
    refine ⟨hcount, hresult, hbw, hbr, hsize, hpending, hdraws, fun hunits => ?_⟩
    obtain ⟨hve, hvd⟩ := hunits i rfl
    exact ⟨he.source_eq hvd, he.sink_eq hve⟩
  | illegal op =>
    rw [step_of_illegal hp hd] at h
    cases h
    obtain rfl := hans.eq_of_gave rfl
    exact ⟨rfl, rfl, ⟨rfl, rfl, rfl, rfl⟩, ⟨rfl, rfl, rfl, rfl⟩, rfl, rfl, rfl, fun _ => ⟨rfl, rfl⟩⟩

/-! ### Varints cut short or too long (R101, R103) -/

/-- Settles O51: the loop of R88 cut by the end of the stream. -/
theorem truncatedVarintFails : Obligations.TruncatedVarintFails :=
  fun _ _ _ _ hi hflagged hlen hgives hend =>
    decodeEnds_of_failed hi ((uvarintDecodeFrom_cut hflagged hlen hgives 0 0).1 hend)

/-- A source that gives some bytes and one more gives the bytes, and the one at the call after them. -/
theorem SourceGives.init_last {p : SrcPort} {bs : List Byte} {b : Byte} (h : SourceGives p (bs ++ [b])) :
    SourceGives p bs ∧ srcAnswerAt p bs.length = some (.byte b) :=
  ⟨fun j c hc => h j c (by rw [List.getElem?_append_left (List.getElem?_eq_some_iff.1 hc).1, hc]),
    h bs.length b List.getElem?_concat_length⟩

/-- Settles O52: the loop of R88 that runs out of turns, and, for a terminated varint, `uvarintDecode_terminated`, which asks
nothing of the payload. -/
theorem overlongVarintFails : Obligations.OverlongVarintFails := by
  refine ⟨rfl, rfl, fun i w s hi => ⟨fun bs b hflagged hlen hgives => ?_, fun bs hbs hlen hgives => ?_⟩⟩
  · obtain ⟨hinit, hlast⟩ := hgives.init_last
    have hrun := uvarintDecodeFrom_overlong (w := w) hflagged hinit hlast 0 0
    rw [hlen] at hrun
    exact decodeEnds_of_failed hi hrun
  · obtain ⟨f, hexec⟩ := exec_of_vdWidth hi
    exact ⟨_, _, _, (congrFun hexec s).trans (uvarintDecode_terminated f hbs hlen hgives), rfl⟩

end Sys2Proof.Machine

/-! Reset and hazards (70_reset_and_hazards.md): a port call that is never answered (R119), and what each host action that is
not a command does (R112, R113, R121). -/

namespace Sys2Proof.Machine

/-! ### A port call that is never answered (R119) -/

/-- A VD command stalls where its loop does. -/
theorem uvarintDecode_stalled {w : Nat} (f : BitVec w → BitVec w) {s : State}
    (hrun : uvarintDecodeFrom (maxB w) 0 (0 : BitVec w) s.source = .neverAnswered) :
    uvarintDecode f s = .fault .sourceNeverAnswers := by
  rw [uvarintDecode, hrun]

/-- A VE command stalls at the byte the sink never answers. -/
theorem uvarintEncode_stalled {w : Nat} {u : BitVec w} {s : State} {m : Nat} (hm : m < (uvarintBytes u).length)
    (hacc : SinkAccepts s.sink m) (hnone : sinkAnswerAt s.sink m = none) :
    uvarintEncode u s = .fault .sinkNeverAnswers := by
  rw [uvarintEncode, putBytes_neverAnswered hm hacc hnone]

/-- Settles O54: the loop of R88 and the encoder's run of `SinkPut` calls, each cut by a call without an answer; the list of
bytes in the statement is the encoder's, since a number has one varint. -/
theorem unansweredPortStalls : Obligations.UnansweredPortStalls := by
  refine ⟨fun i w s bs hi hflagged hlen hgives hnone => ?_, fun i u s bs m hi hbs hm hacc hnone => ?_⟩
  · obtain ⟨f, hexec⟩ := exec_of_vdWidth hi
    rw [hexec]
    exact uvarintDecode_stalled f ((uvarintDecodeFrom_cut hflagged hlen hgives 0 0).2.2 hnone)
  · obtain ⟨w, x, hw, rfl, hexec⟩ := exec_of_veNumber hi
    obtain rfl := isVarint_unique hbs (uvarintBytes_isVarint hw x).1
    rw [hexec]
    exact uvarintEncode_stalled hm hacc hnone

/-! ### What a step on each of the other host actions is -/

section HostActions

variable {s : State} {es : List HostEvent}

theorem step_of_nothing (hp : s.pending = []) : step s = idle s := by
  rw [step, hp]

theorem step_of_attachSource {l : List SrcAnswer} {a : Option SrcAnswer} (hp : s.pending = .attachSource l a :: es) :
    step s = attachSource l a (s.withPending es) := by
  rw [step, hp]

theorem step_of_attachSink {l : List SinkAnswer} {a : Option SinkAnswer} (hp : s.pending = .attachSink l a :: es) :
    step s = attachSink l a (s.withPending es) := by
  rw [step, hp]

theorem step_of_resetDuringCommand {w : CmdWord} (hp : s.pending = .resetDuringCommand w :: es) :
    step s = .refused .resetDuringCommand := by
  rw [step, hp]

theorem step_of_twoCommands {w w' : CmdWord} (hp : s.pending = .twoCommands w w' :: es) :
    step s = .refused .concurrentCommands := by
  rw [step, hp]

end HostActions

/-- Settles O9: `idle` answers the state it is given. -/
theorem nothingPresentedNothingChanges : Obligations.NothingPresentedNothingChanges :=
  fun _ hp => step_of_nothing hp

/-- Settles O10: `step` has an arm for each of the two. -/
theorem hostMisuseRefused : Obligations.HostMisuseRefused :=
  fun _ _ _ _ => ⟨step_of_resetDuringCommand, step_of_twoCommands⟩

/-- Settles O12: the next state is the one `applyReset` writes out. -/
theorem resetEventClearsBlock : Obligations.ResetEventClearsBlock := by
  intro s es hp
  rw [step_of_reset hp]
  exact ⟨_, rfl, rfl, rfl, rfl, rfl, rfl, fun a => ⟨Memory.read_nil a, Memory.read_nil a⟩, ⟨rfl, rfl⟩, rfl, rfl, rfl⟩

/-- Settles O14: `attachSource` and `attachSink` write one port each, and its total is the old one. -/
theorem attachTouchesOnlyThePort : Obligations.AttachTouchesOnlyThePort :=
  fun _ _ => ⟨fun _ _ hp => step_of_attachSource hp, fun _ _ hp => step_of_attachSink hp⟩

end Sys2Proof.Machine
